-- ==== Sys2Proof/Word.lean ====
section
/-! DEFINITION. The plain value types of the block: bytes, samples, tagged bytes, the six-byte device address. -/

namespace Sys2Proof

/-- 8 bits, unsigned (00_scope.md R8). -/
abbrev Byte := BitVec 8

/-- One amplitude sample, `SAMPLE_W` = 16 bits, two's-complement signed (00_scope.md R6, R8; log 1). -/
abbrev Sample := BitVec 16

/-- The six bytes `mac[0..5]` of a device address, `b0` the most significant (49_field_emitter.md R221). -/
structure Mac where
  b0 : Byte
  b1 : Byte
  b2 : Byte
  b3 : Byte
  b4 : Byte
  b5 : Byte
  deriving DecidableEq, Repr

/-- One entry of the output queue: "tagged as 'marker' or 'data'" (30_encoding.md R79). -/
structure TaggedByte where
  isData : Bool
  value  : Byte
  deriving DecidableEq, Repr

/-- The two byte buffers an operation can work on in place (46_dewhitener.md R173). -/
inductive Buffer where
  | hdr
  | pkt
  deriving DecidableEq, Repr

/-- What a unit operation hands back (the "result" of its Operands line, 40_commands_sequencer.md section 1).
The model's own type (log 8). -/
inductive UnitResult where
  | nothing
  | bit (b : Bool)
  | byte (x : Byte)
  | word24 (x : BitVec 24)
  | address (mac : Mac)
  deriving DecidableEq, Repr

end Sys2Proof
end

