-- ==== Sys2Proof/Config.lean ====
section
/-! DEFINITION. What an implementation fixes (the open parameters of 00_scope.md R6) and the free values. -/

namespace Sys2Proof

/-- `PKT_CAP`, fixed at its default (00_scope.md R6, 10_state.md R30; log 1). -/
abbrev pktCap : Nat := 68

/-- Entries of `hdr` (10_state.md R29). -/
abbrev hdrCap : Nat := 2

/-- The parameters of 00_scope.md R6 that have more than one legal value and are not fixed at their default.
A machine carries one record of them for good: no step writes it (log 2). -/
structure Params where
  /-- `RB_SIZE`, written N: number of slots of the ring buffer. -/
  rbSize : Nat
  /-- `RB_INIT`: the ring's contents after reset, slot 0 first; a slot past the end of the list holds 0. -/
  rbInit : List Sample
  /-- `MARK_START`. -/
  markStart : Byte
  /-- `MARK_END`. -/
  markEnd : Byte
  deriving DecidableEq, Repr

/-- The free values: `freeBits w n` is the n-th one, w bits wide. It has no body, so nothing is known of any of
them (93_implementation_defined.md U3, U4: `any value`; log 5). -/
opaque Config.freeBits : (w : Nat) → Nat → BitVec w

end Sys2Proof
end

