-- ==== Sys2Proof/Syntax.lean ====
section
/-! DEFINITION. The operations of the block: one constructor per row of spec/opcode_table.json, and the words of
the input port. -/

namespace Sys2Proof

/-- The operation map of 30_encoding.md R84: three commands (format C) and twenty-two unit operations (format U). -/
inductive Instr where
  /-- RESET (R101). -/
  | reset
  /-- INGEST s (R103). -/
  | ingest (s : Sample)
  /-- CONFIGURE (R102). -/
  | configure
  /-- RB.PUSH s (R120). -/
  | rbPush (s : Sample)
  /-- CD.TICK (R121). -/
  | cdTick
  /-- SL.THRESH (R130). -/
  | slThresh
  /-- SL.BIT k (R133). -/
  | slBit (k : Nat)
  /-- PD.DETECT (R140). -/
  | pdDetect
  /-- FX.BYTE b (R151). -/
  | fxByte (b : Nat)
  /-- FX.SPAN n (R153). -/
  | fxSpan (n : Nat)
  /-- BR.REV x (R160). -/
  | brRev (x : Byte)
  /-- DW.SEED ch (R171). -/
  | dwSeed (ch : Byte)
  /-- DW.STEP (R172). -/
  | dwStep
  /-- DW.RUN data, n, ch (R173). -/
  | dwRun (data : Buffer) (n : Nat) (ch : Byte)
  /-- AA.ASM (R185). -/
  | aaAsm
  /-- AA.CMP (R186). -/
  | aaCmp
  /-- LD.LEN (R190). -/
  | ldLen
  /-- CRC.INIT seed (R201). -/
  | crcInit (seed : BitVec 24)
  /-- CRC.BIT d (R202). -/
  | crcBit (d : Bool)
  /-- CRC.RUN data, n, seed (R203); `data` is "always `PKT`", so it is no field. -/
  | crcRun (n : Nat) (seed : BitVec 24)
  /-- CRC.RXASM (R204). -/
  | crcRxasm
  /-- CRC.CMP (R205). -/
  | crcCmp
  /-- FE.ADDR (R221). -/
  | feAddr
  /-- FE.EMIT mac (R223). -/
  | feEmit (mac : Mac)
  /-- CD.ARM (R225). -/
  | cdArm
  deriving DecidableEq, Repr

/-- A word on the input port. `command` is format C (30_encoding.md R76). `unitOp` is format U, the 5-bit
identifier of R84, with an operand field of the model's own, so that a unit operation can be run alone
(DESIGN CHOICE, log 7). -/
inductive PortWord where
  | command (w : BitVec 18)
  | unitOp (id : BitVec 5) (opnd : BitVec 48)
  deriving DecidableEq, Repr

end Sys2Proof
end

