-- ==== Sys2Proof/WellFormed.lean ====
section
/-! DEFINITION. The checks: operand ranges of an operation, and the legal values of the parameters. -/

namespace Sys2Proof

/-- Capacity of a buffer. -/
def Buffer.cap : Buffer → Nat
  | .hdr => hdrCap
  | .pkt => pktCap

/-- An operand written as a number fits its field of the port word (log 7). The rules' own ranges (SL.BIT 0 to 583,
R133; FX.BYTE 8 to 576, R151; FX.SPAN 5 to 68, R153; CRC.RUN 2 to 65, R203) are what the engine passes and lie inside
it; every other value runs too (log 11). Every other operand takes every value of its type. -/
def Instr.wellFormed : Instr → Bool
  | .slBit k => decide (k < 65536)
  | .fxByte b => decide (b < 65536)
  | .fxSpan n => decide (n < 256)
  | .dwRun _ n _ => decide (n < 256)
  | .crcRun n _ => decide (n < 256)
  | .reset => true
  | .ingest _ => true
  | .configure => true
  | .rbPush _ => true
  | .cdTick => true
  | .slThresh => true
  | .pdDetect => true
  | .brRev _ => true
  | .dwSeed _ => true
  | .dwStep => true
  | .aaAsm => true
  | .aaCmp => true
  | .ldLen => true
  | .crcInit _ => true
  | .crcBit _ => true
  | .crcRxasm => true
  | .crcCmp => true
  | .feAddr => true
  | .feEmit _ => true
  | .cdArm => true

/-- `RB_SIZE` is legal from 584 up: "A model refuses N < 584" (20_memory.md R53). Every `RB_INIT`, `MARK_START`
and `MARK_END` is legal (00_scope.md R6). -/
def Params.legal (p : Params) : Bool := decide (584 ≤ p.rbSize)

end Sys2Proof
end

