-- ==== Sys2Proof/Decode.lean ====
section
/-! DEFINITION. From port words to operations (total, rejecting by name) and back. -/

namespace Sys2Proof

/-- Why a port word is no operation. -/
inductive DecodeError where
  /-- A command word with `op` = 0b11 (30_encoding.md R86 (a)). -/
  | reservedCommand
  /-- A unit-operation identifier 22 to 31, "unused" (R86 (f)). -/
  | unusedUnitId
  deriving DecidableEq, Repr

/-- The decoder's answer. -/
inductive Decoded where
  | ok (i : Instr)
  | reject (e : DecodeError)
  deriving DecidableEq, Repr

/-- `op` of a command word: bits 17:16 (R76). -/
def commandOp (w : BitVec 18) : BitVec 2 := w.extractLsb' 16 2

/-- `imm` of a command word: bits 15:0 (R76). -/
def commandImm (w : BitVec 18) : BitVec 16 := w.extractLsb' 0 16

/-- Format C: 0b00 RESET, 0b01 INGEST, 0b10 CONFIGURE, 0b11 reserved; `imm` is the sample of INGEST and ignored
otherwise (30_encoding.md R76, R86). -/
def decodeCommand (w : BitVec 18) : Decoded :=
  if commandOp w = 0b00#2 then .ok .reset
  else if commandOp w = 0b01#2 then .ok (.ingest (commandImm w))
  else if commandOp w = 0b10#2 then .ok .configure
  else .reject .reservedCommand

/-- `data` of DW.RUN in the model's operand field: 0 is `hdr`, 1 is `PKT`. -/
def decodeBuffer (b : BitVec 1) : Buffer := if b = 1#1 then .pkt else .hdr

/-- Format U: identifiers 0 to 21 (30_encoding.md R84), each with its operands in the low bits of `opnd`, the
last operand lowest. The bits above the operands are ignored, as `imm` of RESET is (the model's own layout, log 7). -/
def decodeUnit (id : BitVec 5) (opnd : BitVec 48) : Decoded :=
  match id.toNat with
  | 0 => .ok (.rbPush (opnd.extractLsb' 0 16))
  | 1 => .ok .cdTick
  | 2 => .ok .slThresh
  | 3 => .ok (.slBit (opnd.extractLsb' 0 16).toNat)
  | 4 => .ok .pdDetect
  | 5 => .ok (.fxByte (opnd.extractLsb' 0 16).toNat)
  | 6 => .ok (.fxSpan (opnd.extractLsb' 0 8).toNat)
  | 7 => .ok (.brRev (opnd.extractLsb' 0 8))
  | 8 => .ok (.dwSeed (opnd.extractLsb' 0 8))
  | 9 => .ok .dwStep
  | 10 => .ok (.dwRun (decodeBuffer (opnd.extractLsb' 16 1)) (opnd.extractLsb' 8 8).toNat (opnd.extractLsb' 0 8))
  | 11 => .ok .aaAsm
  | 12 => .ok .aaCmp
  | 13 => .ok .ldLen
  | 14 => .ok (.crcInit (opnd.extractLsb' 0 24))
  | 15 => .ok (.crcBit (opnd.getLsbD 0))
  | 16 => .ok (.crcRun (opnd.extractLsb' 24 8).toNat (opnd.extractLsb' 0 24))
  | 17 => .ok .crcRxasm
  | 18 => .ok .crcCmp
  | 19 => .ok .feAddr
  | 20 => .ok (.feEmit
      ⟨opnd.extractLsb' 40 8, opnd.extractLsb' 32 8, opnd.extractLsb' 24 8,
       opnd.extractLsb' 16 8, opnd.extractLsb' 8 8, opnd.extractLsb' 0 8⟩)
  | 21 => .ok .cdArm
  | _ => .reject .unusedUnitId

/-- The decoder, total on every port word. -/
def decode : PortWord → Decoded
  | .command w => decodeCommand w
  | .unitOp id opnd => decodeUnit id opnd

/-- The bit of DW.RUN's operand field that names a buffer. -/
def encodeBuffer : Buffer → BitVec 1
  | .hdr => 0#1
  | .pkt => 1#1

/-- The word of an operation; `imm` of RESET and CONFIGURE is written as 0 (R76). -/
def encode : Instr → PortWord
  | .reset => .command (0b00#2 ++ 0#16)
  | .ingest s => .command (0b01#2 ++ s)
  | .configure => .command (0b10#2 ++ 0#16)
  | .rbPush s => .unitOp 0#5 (s.setWidth 48)
  | .cdTick => .unitOp 1#5 0#48
  | .slThresh => .unitOp 2#5 0#48
  | .slBit k => .unitOp 3#5 ((BitVec.ofNat 16 k).setWidth 48)
  | .pdDetect => .unitOp 4#5 0#48
  | .fxByte b => .unitOp 5#5 ((BitVec.ofNat 16 b).setWidth 48)
  | .fxSpan n => .unitOp 6#5 ((BitVec.ofNat 8 n).setWidth 48)
  | .brRev x => .unitOp 7#5 (x.setWidth 48)
  | .dwSeed ch => .unitOp 8#5 (ch.setWidth 48)
  | .dwStep => .unitOp 9#5 0#48
  | .dwRun data n ch => .unitOp 10#5 ((encodeBuffer data ++ BitVec.ofNat 8 n ++ ch).setWidth 48)
  | .aaAsm => .unitOp 11#5 0#48
  | .aaCmp => .unitOp 12#5 0#48
  | .ldLen => .unitOp 13#5 0#48
  | .crcInit seed => .unitOp 14#5 (seed.setWidth 48)
  | .crcBit d => .unitOp 15#5 ((BitVec.ofBool d).setWidth 48)
  | .crcRun n seed => .unitOp 16#5 ((BitVec.ofNat 8 n ++ seed).setWidth 48)
  | .crcRxasm => .unitOp 17#5 0#48
  | .crcCmp => .unitOp 18#5 0#48
  | .feAddr => .unitOp 19#5 0#48
  | .feEmit m => .unitOp 20#5 (m.b0 ++ m.b1 ++ m.b2 ++ m.b3 ++ m.b4 ++ m.b5)
  | .cdArm => .unitOp 21#5 0#48

/-- How many low bits of `imm` or of the operand field an operation reads. -/
def Instr.operandBits : Instr → Nat
  | .reset => 0
  | .ingest _ => 16
  | .configure => 0
  | .rbPush _ => 16
  | .cdTick => 0
  | .slThresh => 0
  | .slBit _ => 16
  | .pdDetect => 0
  | .fxByte _ => 16
  | .fxSpan _ => 8
  | .brRev _ => 8
  | .dwSeed _ => 8
  | .dwStep => 0
  | .dwRun _ _ _ => 17
  | .aaAsm => 0
  | .aaCmp => 0
  | .ldLen => 0
  | .crcInit _ => 24
  | .crcBit _ => 1
  | .crcRun _ _ => 32
  | .crcRxasm => 0
  | .crcCmp => 0
  | .feAddr => 0
  | .feEmit _ => 48
  | .cdArm => 0

/-- The port word of a row of spec/opcode_table.json: a row of at most 8 bits is a unit operation (5-bit
identifier, operands all 0), a longer one a command word of 18 bits. -/
def tablePortWord (nbits w : Nat) : PortWord :=
  if nbits ≤ 8 then .unitOp (BitVec.ofNat 5 w) 0#48 else .command (BitVec.ofNat 18 w)

/-- How many bits `tablePortWord` keeps. -/
def tableWidth (nbits : Nat) : Nat := if nbits ≤ 8 then 5 else 18

/-- What the decoder reads from a table row's word. -/
def decodeTableWord (nbits w : Nat) : Option Instr :=
  if w < 2 ^ tableWidth nbits then
    match decode (tablePortWord nbits w) with
    | .ok i => some i
    | .reject _ => none
  else none

end Sys2Proof
end

