-- ==== Sys2Proof/Machine/Constants.lean ====
section
/-! DEFINITION. The constants of 00_scope.md R7 and the default parameters of R6. -/

namespace Sys2Proof.Machine

/-- `ADV_AA`: the advertising access address (R7). -/
def advAA : BitVec 32 := 0x8E89BED6#32

/-- `CRC_SEED` (R7). -/
def crcSeed : BitVec 24 := 0x555555#24

/-- `CRC_POLY`: `CRC_TAP_LOW` 0x5B in the low byte and `CRC_TAP_MID` 0x06 in the middle byte (R7). -/
def crcPoly : BitVec 24 := 0x00065B#24

/-- `COOLDOWN_LEN` (R7). -/
def cooldownLen : BitVec 5 := 20#5

/-- `THR_WINDOW`, in samples (R7). -/
def thrWindow : Nat := 8

/-- Comparisons of the preamble test, and the transitions it needs: `PRE_BITS` is 9 bits, 8 comparisons (R7). -/
def preComparisons : Nat := 8

/-- `LEN_MASK` (R7). -/
def lenMask : Byte := 0x3F#8

/-- `WHITEN_SEED_OR` (R7). -/
def whitenSeedOr : Byte := 0x02#8

/-- `WHITEN_TAP` (R6: "value not in DOC; [from general knowledge, not in source]"; log 14). -/
def whitenTap : Byte := 0x11#8

/-- `CHANNEL` (R6). -/
def channel : Byte := 38#8

/-- `OFF_AA`: bit offset of the access address (R7). -/
def offAA : Nat := 8

/-- `OFF_HDR`: bit offset of the PDU header and of the span (R7). -/
def offHdr : Nat := 40

/-- `RB_SIZE` 1000, `MARK_START` 0x41, `MARK_END` 0x42 are the defaults of R6; `RB_INIT` has none, and every slot
0 is the value 95_test_vectors.md uses (DESIGN CHOICE, log 2). -/
def defaultParams : Params := { rbSize := 1000, rbInit := [], markStart := 0x41#8, markEnd := 0x42#8 }

end Sys2Proof.Machine
end

