-- ==== Sys2Proof/Machine/State.lean ====
section
/-! DEFINITION. The state of the block (10_state.md R20), the reasons a step can stop, and the state after reset. -/

namespace Sys2Proof.Machine

/-- The ring's contents: the slots whose sample differs from `RB_INIT`, as (slot, sample) pairs with strictly
rising slots (`Memory.wf` in Machine/Ops.lean). An unlisted slot reads as its reset contents (log 16). -/
abbrev Memory := List (Nat × Sample)

/-- The complete state of 10_state.md R20, and four fields of the model's own: `params`, `port`, `result`, `freeIdx`. -/
structure State where
  /-- The machine's parameters (00_scope.md R6). The model's own field; no step writes it (log 2). -/
  params : Params
  /-- The words the host has issued and the block has not taken yet. The model's own field (log 6). -/
  port : List PortWord
  /-- `configured` (R26). -/
  configured : Bool
  /-- `wp`, the write position (R22). -/
  wp : Nat
  /-- `cd`, the cooldown counter (R25). -/
  cd : BitVec 5
  /-- `thr`, the decision threshold, signed (R24). -/
  thr : Sample
  /-- `RB`, the sample history buffer (R23). -/
  ring : Memory
  /-- `OUTQ`, the output queue, oldest entry first (R33). -/
  outq : List TaggedByte
  /-- `lfsr`, the whitening register (R27). -/
  lfsr : BitVec 8
  /-- `crc`, the CRC register (R28). -/
  crc : BitVec 24
  /-- `aa`, the assembled access address (R29). -/
  aa : BitVec 32
  /-- `hdr[0..1]`, the header bytes (R29). -/
  hdr : Vector Byte hdrCap
  /-- `len`, the payload length (R29). -/
  len : BitVec 6
  /-- `trans`, the transition count (R29). -/
  trans : BitVec 4
  /-- `calc`, the computed CRC (R29); the bare name is a word of Lean's. -/
  calcCrc : BitVec 24
  /-- `rx`, the received CRC (R29). -/
  rxCrc : BitVec 24
  /-- `PKT`, the candidate buffer (R30). -/
  pkt : Vector Byte pktCap
  /-- What the last unit operation run alone handed back. The model's own field (log 8). -/
  result : UnitResult
  /-- Index of the next free value. The model's own field (log 5). -/
  freeIdx : Nat
  deriving DecidableEq, Repr

/-- There is none: "the block raises nothing" (93_implementation_defined.md section 1; 60_exceptions.md R240). -/
inductive Fault where
  deriving DecidableEq, Repr

/-- Where the model stops. Each is safe: the block has no such behaviour, or the spec says that a model refuses. -/
inductive Refusal where
  /-- Raised by `exec` for an operation that has no meaning yet; safe. -/
  | notModelled (mnemonic : String)
  /-- Raised by `step`: "A model refuses N < 584" (20_memory.md R53, 93_implementation_defined.md U8); safe. -/
  | illegalParameters
  /-- Raised by `step` for a unit-operation word whose identifier is 22 to 31: "unused" (30_encoding.md R86 (f)), so
  it names no operation (log 7); safe. -/
  | unusedUnitId
  deriving DecidableEq, Repr

/-- The state of 10_state.md R36 for any parameters: `configured`, `wp`, `cd`, `thr` 0, every slot of the ring at
`RB_INIT`, `OUTQ` empty. R36 calls the working registers unspecified: they are 0 here (DESIGN CHOICE, log 3). -/
def State.resetWith (p : Params) : State where
  params := p
  port := []
  configured := false
  wp := 0
  cd := 0#5
  thr := 0#16
  ring := []
  outq := []
  lfsr := 0#8
  crc := 0#24
  aa := 0#32
  hdr := Vector.replicate hdrCap 0#8
  len := 0#6
  trans := 0#4
  calcCrc := 0#24
  rxCrc := 0#24
  pkt := Vector.replicate pktCap 0#8
  result := .nothing
  freeIdx := 0

/-- The machine right after reset, with the default parameters (00_scope.md R6; log 2). -/
def State.reset : State := State.resetWith defaultParams

end Sys2Proof.Machine
end

