-- ==== Sys2Proof/Machine/Ops.lean ====
section
/-! DEFINITION. The shared operations: ring access, the two byte buffers, the output queue, free values, rejection,
bit reversal, the whitening register, the CRC register. -/

namespace Sys2Proof.Machine

/-! ### The ring -/

/-- What a slot holds after reset: `RB_INIT[i]` (10_state.md R36). The one definition of what an unlisted slot
reads as. -/
def ringInit (p : Params) (slot : Nat) : Sample := p.rbInit.getD slot 0#16

/-- The sample in a slot. -/
def Memory.read (p : Params) : Memory → Nat → Sample
  | [], slot => ringInit p slot
  | (b, v) :: m, slot => if slot = b then v else Memory.read p m slot

/-- List a slot with a sample, in its place. -/
def Memory.insert (slot : Nat) (v : Sample) : Memory → Memory
  | [] => [(slot, v)]
  | (b, w) :: m =>
    if slot < b then (slot, v) :: (b, w) :: m
    else if slot = b then (slot, v) :: m
    else (b, w) :: Memory.insert slot v m

/-- Unlist a slot. -/
def Memory.erase (slot : Nat) (m : Memory) : Memory := m.filter (fun e => e.1 != slot)

/-- Write a sample to a slot. Writing the reset contents unlists the slot, so that equal rings are equal lists. -/
def Memory.write (p : Params) (m : Memory) (slot : Nat) (v : Sample) : Memory :=
  if v = ringInit p slot then Memory.erase slot m else Memory.insert slot v m

/-- The canonical form: slots strictly rising, all below N, none listed with its reset contents. -/
def Memory.wf (p : Params) (m : Memory) : Bool :=
  decide (m.Pairwise (fun e f => e.1 < f.1)) &&
  m.all (fun e => decide (e.1 < p.rbSize) && decide (e.2 ≠ ringInit p e.1))

/-- `addr mod N`, the mathematical remainder also for a negative `addr` (00_scope.md R8, R10 (a)). -/
def slotOf (p : Params) (addr : Int) : Nat := (addr % (p.rbSize : Int)).toNat

/-- `MemRead(addr, 1)`: the sample in slot `addr mod N` (00_scope.md R9). -/
def memRead (s : State) (addr : Int) : Sample := s.ring.read s.params (slotOf s.params addr)

/-- `MemWrite(addr, 1, v)` (00_scope.md R9). -/
def memWrite (s : State) (addr : Int) (v : Sample) : State :=
  { s with ring := s.ring.write s.params (slotOf s.params addr) v }

/-! ### The byte buffers, the output queue, free values -/

/-- The bytes of a buffer, index 0 first. -/
def bufferBytes (s : State) : Buffer → List Byte
  | .hdr => s.hdr.toList
  | .pkt => s.pkt.toList

/-- The buffer whose entry i is `f i`. -/
def bufferOf {m : Nat} (f : Fin m → Byte) : Vector Byte m := ⟨⟨List.ofFn f⟩, by simp⟩

/-- `OutPush(tag, value)`: append one tagged byte to the queue; it "always succeeds at once and has no result" (20_memory.md
R65, 10_state.md R33). -/
def outPush (q : List TaggedByte) (e : TaggedByte) : List TaggedByte := q ++ [e]

/-- The 9-bit word of an entry: bit 8 is `is_data`, bits 7:0 the value (30_encoding.md R79). -/
def taggedWord (e : TaggedByte) : BitVec 9 := BitVec.ofBool e.isData ++ e.value

/-- A marker entry. -/
def marker (v : Byte) : TaggedByte := ⟨false, v⟩

/-- A data entry. -/
def dataByte (v : Byte) : TaggedByte := ⟨true, v⟩

/-- Free values for `PKT` as a whole: "At the start of a candidate every entry is `unspecified`", "any value, and a
different value each time" (10_state.md R30, 49_field_emitter.md R222; log 5). -/
def freshPkt (s : State) : State :=
  { s with
    pkt := bufferOf fun i : Fin pktCap => Config.freeBits 8 (s.freeIdx + i.val)
    freeIdx := s.freeIdx + pktCap }

/-- The first n bytes of `PKT`. An entry from `pktCap` up does not exist: what is read there is a free value (DESIGN
CHOICE, log 11). -/
def pktBytes (n : Nat) (s : State) : List Byte :=
  s.pkt.toList.take n ++ (List.range (n - pktCap)).map fun i => Config.freeBits 8 (s.freeIdx + i)

/-- Free values for every working register: after RESET they are unspecified (10_state.md R36; log 3, log 5). -/
def freshWorking (s : State) : State :=
  let t := freshPkt s
  let n := t.freeIdx
  { t with
    lfsr := Config.freeBits 8 n
    crc := Config.freeBits 24 (n + 1)
    aa := Config.freeBits 32 (n + 2)
    hdr := #v[Config.freeBits 8 (n + 3), Config.freeBits 8 (n + 4)]
    len := Config.freeBits 6 (n + 5)
    trans := Config.freeBits 4 (n + 6)
    calcCrc := Config.freeBits 24 (n + 7)
    rxCrc := Config.freeBits 24 (n + 8)
    freeIdx := n + 9 }

/-! ### Rejection, the block's counterpart of an exception -/

/-- The four reasons of 60_exceptions.md R240. -/
inductive RejectReason where
  | notConfigured
  | noPreamble
  | badAA
  | badCrc
  deriving DecidableEq, Repr

/-- The codes 1 to 4 of R240, "naming only". -/
def rejectCode : RejectReason → Nat
  | .notConfigured => 1
  | .noPreamble => 2
  | .badAA => 3
  | .badCrc => 4

/-- The six outcomes of an INGEST (40_commands_sequencer.md R107): four are rejections, `cool` and `accept` are not
(60_exceptions.md R245). "The outcome itself is not stored and not reported". -/
inductive IngestOutcome where
  | reject (r : RejectReason)
  | cool
  | accept
  deriving DecidableEq, Repr

/-- `raise Reject(reason)`: "A rejection saves nothing and goes nowhere"; "Its whole effect is that the remaining
stages of the INGEST are skipped" (60_exceptions.md R249). There is nothing to return from (R250). -/
def raiseReject (r : RejectReason) (s : State) : State × IngestOutcome := (s, .reject r)

/-! ### Bit reversal, whitening register, CRC register -/

/-- `rev(x)`: `r[7 - i] <- x[i]` for i in 0..7 (45_bit_reversal.md R160). -/
def rev (x : Byte) : Byte :=
  (List.range 8).foldl (fun r i => if x.getLsbD i then r ||| (1#8 <<< (7 - i)) else r) 0#8

/-- The whitening bit: "the LFSR's top bit" (46_dewhitener.md R172). -/
def whitenBit (l : BitVec 8) : Bool := l.getLsbD 7

/-- The register after one step: the tap XORed in if the top bit is set, then an 8-bit shift (R172). -/
def lfsrNext (l : BitVec 8) : BitVec 8 := (if whitenBit l then l ^^^ whitenTap else l) <<< 1

/-- One byte of a dewhitening run, bit 7 first, with the register it leaves (R173). -/
def dewhitenByte (d : Byte) (l : BitVec 8) : Byte × BitVec 8 :=
  (List.range 8).foldl
    (fun q c => (if whitenBit q.2 then q.1 ^^^ (0x80#8 >>> c) else q.1, lfsrNext q.2)) (d, l)

/-- The first n bytes of a buffer dewhitened in order, with the register the run leaves (R173). A byte past the end of
the buffer has no place to be written, but the register takes its eight steps: it "does not depend on the data"
(R174; log 11). -/
def dewhitenBytes : Nat → List Byte → BitVec 8 → List Byte × BitVec 8
  | 0, ds, l => (ds, l)
  | n + 1, [], l => dewhitenBytes n [] (dewhitenByte 0#8 l).2
  | n + 1, d :: ds, l =>
    let b := dewhitenByte d l
    let r := dewhitenBytes n ds b.2
    (b.1 :: r.1, r.2)

/-- Dewhitening keeps the number of bytes. -/
theorem dewhitenBytes_length (n : Nat) (ds : List Byte) (l : BitVec 8) :
    (dewhitenBytes n ds l).1.length = ds.length := by
  induction n generalizing ds l with
  | zero => rfl
  | succ n ih =>
    cases ds with
    | nil => simpa [dewhitenBytes] using ih [] _
    | cons d ds => simp [dewhitenBytes, ih]

/-- `dewhitenBytes` on a buffer of fixed size, in place. -/
def dewhitenVec {m : Nat} (n : Nat) (v : Vector Byte m) (l : BitVec 8) : Vector Byte m :=
  ⟨⟨(dewhitenBytes n v.toList l).1⟩, by simp [dewhitenBytes_length]⟩

/-- The CRC register after one data bit: top bit taken before the shift, 24-bit shift, taps XORed after it when
the two differ (48_crc24.md R202). -/
def crcNext (crc : BitVec 24) (d : Bool) : BitVec 24 :=
  if crc.getLsbD 23 != d then (crc <<< 1) ^^^ crcPoly else crc <<< 1

/-- One data byte through the CRC: bit-reversed, then bit 0 first (48_crc24.md R203). -/
def crcByte (crc : BitVec 24) (x : Byte) : BitVec 24 :=
  (List.range 8).foldl (fun c v => crcNext c ((rev x).getLsbD v)) crc

/-- Data bytes through the CRC in order (R203). -/
def crcBytes (crc : BitVec 24) (xs : List Byte) : BitVec 24 := xs.foldl crcByte crc

/-! ### The input port -/

/-- The next word the host issued, and the state with that word taken. -/
def takeWord (s : State) : Option (PortWord × State) :=
  match s.port with
  | [] => none
  | w :: ws => some (w, { s with port := ws })

/-- A word at the head of the port (how the host places one). -/
def placeWord (w : PortWord) (s : State) : State := { s with port := w :: s.port }

/-- With no word on the port "the block does nothing until the first command" (70_reset_and_hazards.md R270;
60_exceptions.md R260). -/
def idle (s : State) : Host.Outcome State Fault Refusal := .next s

/-- A word that is no operation. A reserved command word: "The block ignores it: no state changes and nothing is
emitted" (30_encoding.md R86 (a); log 9). A unit-operation identifier that is "unused" (R86 (f)) names nothing to
execute: refused (log 7). -/
def ignoreWord (e : DecodeError) (s : State) : Host.Outcome State Fault Refusal :=
  match e with
  | .reservedCommand => .next s
  | .unusedUnitId => .refused .unusedUnitId

end Sys2Proof.Machine
end

