-- ==== Sys2Proof/Machine/BitOrder.lean ====
section
/-! DEFINITION. The Bit-Order Normalizer (45_bit_reversal.md): BR.REV. -/

namespace Sys2Proof.Machine

/-- BR.REV x run alone: "Reads and writes no state" (R160); its result is the reversed byte. -/
def execBrRev (x : Byte) (s : State) : Host.Outcome State Fault Refusal :=
  .next { s with result := .byte (rev x) }

end Sys2Proof.Machine
end

