-- ==== Sys2Proof/Machine/Operands.lean ====
section
/-! DEFINITION. Operand assembly: the formulas of 30_encoding.md R83. -/

namespace Sys2Proof.Machine

/-- The bit view at offset k: "1 if MemRead(wp + k, 1) > thr else 0", a strict signed comparison (42_slicer.md
R133). Derived on demand, never stored (10_state.md R35). -/
def bitAt (s : State) (k : Nat) : Bool := decide ((memRead s ((s.wp : Int) + k)).toInt > s.thr.toInt)

/-- The raw byte at bit offset b: the bit at the lowest offset is bit 7 (44_field_extractor.md R151). -/
def rawByte (s : State) (b : Nat) : Byte :=
  (List.range 8).foldl (fun x c => x ||| ((BitVec.ofBool (bitAt s (b + c))).setWidth 8 <<< (7 - c))) 0#8

/-- The 32-bit access address: four reversed raw bytes, the first one least significant (47_aa_filter_length.md
R185). -/
def accessAddress (s : State) : BitVec 32 :=
  (List.range 4).foldl
    (fun a i => a ||| ((rev (rawByte s (offAA + 8 * i))).setWidth 32 <<< (8 * i))) 0#32

/-- The payload length of a dewhitened second header byte: `rev(hdr[1]) & 0x3F` (47_aa_filter_length.md R190). -/
def lengthField (h : Byte) : BitVec 6 := (rev h &&& lenMask).setWidth 6

/-- The received CRC: `PKT[len+2] ++ PKT[len+3] ++ PKT[len+4]`, first byte most significant, not reversed
(48_crc24.md R204). -/
def receivedCrc (len : BitVec 6) (pkt : Vector Byte pktCap) : BitVec 24 :=
  have h : len.toNat < 64 := len.isLt
  have h2 : len.toNat + 2 < pktCap := by unfold pktCap; omega
  have h3 : len.toNat + 3 < pktCap := by unfold pktCap; omega
  have h4 : len.toNat + 4 < pktCap := by unfold pktCap; omega
  pkt[len.toNat + 2] ++ pkt[len.toNat + 3] ++ pkt[len.toNat + 4]

/-- The device address: `mac[k] = rev(PKT[7 - k])` (49_field_emitter.md R221). -/
def deviceAddress (pkt : Vector Byte pktCap) : Mac :=
  ⟨rev pkt[7], rev pkt[6], rev pkt[5], rev pkt[4], rev pkt[3], rev pkt[2]⟩

/-- The whitening seed: `rev(channel) | 0x02` (46_dewhitener.md R171). -/
def whitenSeed (ch : Byte) : BitVec 8 := rev ch ||| whitenSeedOr

/-- The record of one accepted packet: start marker, six data bytes, end marker (30_encoding.md R80,
49_field_emitter.md R223). -/
def record (p : Params) (m : Mac) : List TaggedByte :=
  [marker p.markStart, dataByte m.b0, dataByte m.b1, dataByte m.b2, dataByte m.b3, dataByte m.b4, dataByte m.b5,
   marker p.markEnd]

end Sys2Proof.Machine
end

