-- ==== Sys2Proof/Machine/Flags.lean ====
section
/-! DEFINITION. The four flags of 10_state.md R31: each "a pure function of state at the moment it is taken"; none
is stored. -/

namespace Sys2Proof.Machine

/-- `eligible`: `cd == 0`, taken before the decrement (41_ingest_cooldown.md R121). -/
def eligible (s : State) : Bool := s.cd == 0#5

/-- `pre_ok`: `trans == 8` (43_preamble.md R140). -/
def preOk (s : State) : Bool := s.trans == 8#4

/-- `aa_ok`: `aa == 0x8E89BED6` (47_aa_filter_length.md R186). -/
def aaOk (s : State) : Bool := s.aa == advAA

/-- `crc_ok`: `calc == rx` (48_crc24.md R205). -/
def crcOk (s : State) : Bool := s.calcCrc == s.rxCrc

/-- Adjacent bits of the preamble window that differ, counted in `trans` (43_preamble.md R140). -/
def transitions (s : State) : BitVec 4 :=
  (List.range preComparisons).foldl
    (fun t i => if bitAt s i != bitAt s (i + 1) then t + 1#4 else t) 0#4

end Sys2Proof.Machine
end

