-- ==== Sys2Proof/Machine/AccessFilter.lean ====
section
/-! DEFINITION. The Access-Address Filter and the Length Decoder (47_aa_filter_length.md): AA.ASM, AA.CMP, LD.LEN. -/

namespace Sys2Proof.Machine

/-- AA.ASM: `aa` from the window at bit offsets 8 to 39 (R185). -/
def assembleAddress (s : State) : State := { s with aa := accessAddress s }

/-- LD.LEN: `len <- BR.REV(hdr[1]) & 0x3F` (R190). -/
def decodeLength (s : State) : State := { s with len := lengthField s.hdr[1] }

/-- AA.ASM run alone. -/
def execAaAsm (s : State) : Host.Outcome State Fault Refusal :=
  .next { assembleAddress s with result := .nothing }

/-- AA.CMP run alone; it only reads `aa`, its result is `aa_ok` (R186). -/
def execAaCmp (s : State) : Host.Outcome State Fault Refusal :=
  .next { s with result := .bit (aaOk s) }

/-- LD.LEN run alone. -/
def execLdLen (s : State) : Host.Outcome State Fault Refusal :=
  .next { decodeLength s with result := .nothing }

end Sys2Proof.Machine
end

