-- ==== Sys2Proof/Machine/CrcValidator.lean ====
section
/-! DEFINITION. The CRC24 Validator (48_crc24.md): CRC.INIT, CRC.BIT, CRC.RUN, CRC.RXASM, CRC.CMP. -/

namespace Sys2Proof.Machine

/-- CRC.INIT seed (R201). -/
def initCrc (seed : BitVec 24) (s : State) : State := { s with crc := seed }

/-- CRC.BIT d (R202). -/
def shiftCrc (d : Bool) (s : State) : State := { s with crc := crcNext s.crc d }

/-- CRC.RUN PKT, n, seed: seed, then the first n bytes of `PKT`; writes `crc` and `calc` (R203). Entries from
`pktCap` up, of which INGEST asks for none, read as free values (log 11). -/
def runCrc (n : Nat) (seed : BitVec 24) (s : State) : State :=
  let c := crcBytes seed (pktBytes n s)
  { s with crc := c, calcCrc := c, freeIdx := s.freeIdx + (n - pktCap) }

/-- CRC.RXASM: `rx` from `PKT[len+2 .. len+4]` (R204). -/
def assembleRx (s : State) : State := { s with rxCrc := receivedCrc s.len s.pkt }

/-- CRC.INIT run alone. -/
def execCrcInit (seed : BitVec 24) (s : State) : Host.Outcome State Fault Refusal :=
  .next { initCrc seed s with result := .nothing }

/-- CRC.BIT run alone. -/
def execCrcBit (d : Bool) (s : State) : Host.Outcome State Fault Refusal :=
  .next { shiftCrc d s with result := .nothing }

/-- CRC.RUN run alone; its result is `calc`. -/
def execCrcRun (n : Nat) (seed : BitVec 24) (s : State) : Host.Outcome State Fault Refusal :=
  let t := runCrc n seed s
  .next { t with result := .word24 t.calcCrc }

/-- CRC.RXASM run alone. -/
def execCrcRxasm (s : State) : Host.Outcome State Fault Refusal :=
  .next { assembleRx s with result := .nothing }

/-- CRC.CMP run alone; it only reads `calc` and `rx`, its result is `crc_ok` (R205). -/
def execCrcCmp (s : State) : Host.Outcome State Fault Refusal :=
  .next { s with result := .bit (crcOk s) }

end Sys2Proof.Machine
end

