-- ==== Sys2Proof/Machine/Dewhitener.lean ====
section
/-! DEFINITION. The Dewhitening Engine (46_dewhitener.md): DW.SEED, DW.STEP, DW.RUN. -/

namespace Sys2Proof.Machine

/-- DW.SEED ch: `lfsr <- BR.REV(ch) | 0x02` (R171). -/
def seedWhitening (ch : Byte) (s : State) : State := { s with lfsr := whitenSeed ch }

/-- DW.STEP: the register moves on by one (R172). -/
def stepWhitening (s : State) : State := { s with lfsr := lfsrNext s.lfsr }

/-- DW.RUN data, n, ch: seed, then dewhiten `data[0 .. n-1]` in place; `lfsr` keeps its final value (R173). -/
def runWhitening (data : Buffer) (n : Nat) (ch : Byte) (s : State) : State :=
  let l := (dewhitenBytes n (bufferBytes s data) (whitenSeed ch)).2
  match data with
  | .hdr => { s with hdr := dewhitenVec n s.hdr (whitenSeed ch), lfsr := l }
  | .pkt => { s with pkt := dewhitenVec n s.pkt (whitenSeed ch), lfsr := l }

/-- DW.SEED run alone. -/
def execDwSeed (ch : Byte) (s : State) : Host.Outcome State Fault Refusal :=
  .next { seedWhitening ch s with result := .nothing }

/-- DW.STEP run alone; its result is the whitening bit `w`, taken before the step. -/
def execDwStep (s : State) : Host.Outcome State Fault Refusal :=
  .next { stepWhitening s with result := .bit (whitenBit s.lfsr) }

/-- DW.RUN run alone. Past the buffer's capacity there is no entry to rewrite; the register runs on (log 11). -/
def execDwRun (data : Buffer) (n : Nat) (ch : Byte) (s : State) : Host.Outcome State Fault Refusal :=
  .next { runWhitening data n ch s with result := .nothing }

end Sys2Proof.Machine
end

