-- ==== Sys2Proof/Machine/Emitter.lean ====
section
/-! DEFINITION. The Field Emitter and the cooldown arm (49_field_emitter.md): FE.ADDR, FE.EMIT, CD.ARM. -/

namespace Sys2Proof.Machine

/-- FE.EMIT mac: eight `OutPush` in order, the start marker, the six bytes, the end marker (R223). -/
def emitRecord (m : Mac) (s : State) : State :=
  { s with outq := (record s.params m).foldl outPush s.outq }

/-- FE.EMIT behind its gate: "FE.EMIT runs only when `crc_ok` is 1", and a record is never emitted with `calc` !=
`rx` (48_crc24.md R206). Both INGEST and FE.EMIT run alone go through it. -/
def gateRecord (m : Mac) (s : State) : State × IngestOutcome :=
  if crcOk s then (emitRecord m s, .accept) else raiseReject .badCrc s

/-- CD.ARM: `cd <- 20` whatever it held (R225). -/
def armCooldown (s : State) : State := { s with cd := cooldownLen }

/-- FE.ADDR run alone; it only reads `PKT[2..7]`, its result is `mac[0..5]` (R221). -/
def execFeAddr (s : State) : Host.Outcome State Fault Refusal :=
  .next { s with result := .address (deviceAddress s.pkt) }

/-- FE.EMIT run alone: behind the gate of R206, so with `calc` != `rx` it emits nothing (log 18). -/
def execFeEmit (m : Mac) (s : State) : Host.Outcome State Fault Refusal :=
  .next { (gateRecord m s).1 with result := .nothing }

/-- CD.ARM run alone. -/
def execCdArm (s : State) : Host.Outcome State Fault Refusal :=
  .next { armCooldown s with result := .nothing }

end Sys2Proof.Machine
end

