-- ==== Sys2Proof/Machine/FieldExtractor.lean ====
section
/-! DEFINITION. The Field Extractor (44_field_extractor.md): FX.BYTE, FX.SPAN. -/

namespace Sys2Proof.Machine

/-- FX.SPAN n: `PKT[t] <- FX.BYTE(40 + 8 * t)` for t in 0..n-1; entries from n upward keep what they hold (R153). -/
def extractSpan (n : Nat) (s : State) : State :=
  { s with
    pkt := bufferOf fun t : Fin pktCap => if t.val < n then rawByte s (offHdr + 8 * t.val) else s.pkt[t] }

/-- The header read of stage S5: `hdr[0] <- FX.BYTE 40`, `hdr[1] <- FX.BYTE 48` (40_commands_sequencer.md R104). -/
def extractHeader (s : State) : State := { s with hdr := #v[rawByte s offHdr, rawByte s (offHdr + 8)] }

/-- FX.BYTE b run alone: "Reads 8 ring slots through SL.BIT; writes nothing" (R151); its result is the raw byte. -/
def execFxByte (b : Nat) (s : State) : Host.Outcome State Fault Refusal :=
  .next { s with result := .byte (rawByte s b) }

/-- FX.SPAN n run alone. Past `PKT_CAP` there is no entry to write (log 11). -/
def execFxSpan (n : Nat) (s : State) : Host.Outcome State Fault Refusal :=
  .next { extractSpan n s with result := .nothing }

end Sys2Proof.Machine
end

