-- ==== Sys2Proof/Machine/Preamble.lean ====
section
/-! DEFINITION. The Preamble Detector (43_preamble.md): PD.DETECT. -/

namespace Sys2Proof.Machine

/-- PD.DETECT: `trans` counts the transitions over offsets 0 to 8 (R140). -/
def countTransitions (s : State) : State := { s with trans := transitions s }

/-- PD.DETECT run alone; its result is `pre_ok`. -/
def execPdDetect (s : State) : Host.Outcome State Fault Refusal :=
  let t := countTransitions s
  .next { t with result := .bit (preOk t) }

end Sys2Proof.Machine
end

