-- ==== Sys2Proof/Machine/SampleIngest.lean ====
section
/-! DEFINITION. Sample Ingest and the cooldown tick (41_ingest_cooldown.md): RB.PUSH, CD.TICK. -/

namespace Sys2Proof.Machine

/-- RB.PUSH s: `wp` advances first, then the sample is written at the new position (R120). -/
def pushSample (v : Sample) (s : State) : State :=
  let t := { s with wp := slotOf s.params ((s.wp : Int) + 1) }
  memWrite t t.wp v

/-- CD.TICK: decrement, clamped at 0 (R121, R122). -/
def tickCooldown (s : State) : State := { s with cd := if s.cd == 0#5 then s.cd else s.cd - 1#5 }

/-- RB.PUSH run alone. -/
def execRbPush (v : Sample) (s : State) : Host.Outcome State Fault Refusal :=
  .next { pushSample v s with result := .nothing }

/-- CD.TICK run alone; its result is `eligible`. -/
def execCdTick (s : State) : Host.Outcome State Fault Refusal :=
  .next { tickCooldown s with result := .bit (eligible s) }

end Sys2Proof.Machine
end

