-- ==== Sys2Proof/Machine/Slicer.lean ====
section
/-! DEFINITION. The Adaptive Slicer (42_slicer.md): SL.THRESH, SL.BIT. -/

namespace Sys2Proof.Machine

/-- The exact sum of the 8 newest samples, `RB[(wp - j) mod N]` for j in 0..7 (R130, 20_memory.md R54). -/
def thresholdSum (s : State) : Int :=
  (List.range thrWindow).foldl (fun sum (j : Nat) => sum + (memRead s ((s.wp : Int) - j)).toInt) 0

/-- SL.THRESH: `thr <- floor(sum / 8)` (R130, R131). Lean's `/` on Int by a positive number rounds toward minus
infinity. -/
def setThreshold (s : State) : State := { s with thr := BitVec.ofInt 16 (thresholdSum s / 8) }

/-- SL.THRESH run alone. -/
def execSlThresh (s : State) : Host.Outcome State Fault Refusal :=
  .next { setThreshold s with result := .nothing }

/-- SL.BIT k run alone: "Reads `wp`, `thr`, one ring slot; writes nothing" (R133); its result is the bit. -/
def execSlBit (k : Nat) (s : State) : Host.Outcome State Fault Refusal :=
  .next { s with result := .bit (bitAt s k) }

end Sys2Proof.Machine
end

