-- ==== Sys2Proof/Machine/Commands.lean ====
section
/-! DEFINITION. The commands and the per-sample sequencer (40_commands_sequencer.md): RESET, CONFIGURE, INGEST. -/

namespace Sys2Proof.Machine

/-- Stages S5 to S7 of R104: header, length, span, dewhitening, computed and received CRC. Before FX.SPAN writes
its entries, every entry of `PKT` is unspecified (10_state.md R30; log 5). -/
def processCandidate (s : State) : State :=
  let h := decodeLength (runWhitening .hdr 2 channel (extractHeader s))
  let n := h.len.toNat
  let b := runWhitening .pkt (n + 5) channel (extractSpan (n + 5) (freshPkt h))
  assembleRx (runCrc (n + 2) crcSeed b)

/-- Stages S8 and S9 of R104: CD.ARM, then the CRC test, then the record. -/
def decideCandidate (s : State) : State × IngestOutcome :=
  let t := armCooldown s
  gateRecord (deviceAddress t.pkt) t

/-- Stages S4 to S9 of R104: the access-address test comes before any dewhitening (R109). -/
def filterCandidate (s : State) : State × IngestOutcome :=
  let t := assembleAddress s
  if aaOk t then decideCandidate (processCandidate t) else raiseReject .badAA t

/-- Stages S2 to S9 of R104, run when the INGEST is eligible. -/
def searchWindow (s : State) : State × IngestOutcome :=
  let t := countTransitions (setThreshold s)
  if preOk t then filterCandidate t else raiseReject .noPreamble t

/-- The sequencer of R104: S0 RB.PUSH, S1 CD.TICK, then the search if eligible. -/
def sequencer (v : Sample) (s : State) : State × IngestOutcome :=
  let t := pushSample v s
  if eligible t then searchWindow (tickCooldown t) else (tickCooldown t, .cool)

/-- INGEST s: inert while not configured (R103), else the sequencer. The outcome beside the state is not part of
the state (R107). -/
def ingest (v : Sample) (s : State) : State × IngestOutcome :=
  if s.configured then sequencer v s else raiseReject .notConfigured s

/-- The state after RESET: `configured`, `wp`, `cd`, `thr` 0, `RB` = `RB_INIT`, `OUTQ` empty, working registers
unspecified (R101, 10_state.md R36; log 3, log 5). The parameters and the words still on the port stay. -/
def resetState (s : State) : State :=
  { freshWorking s with
    configured := false
    wp := 0
    cd := 0#5
    thr := 0#16
    ring := []
    outq := []
    result := .nothing }

/-- RESET (R101). -/
def execReset (s : State) : Host.Outcome State Fault Refusal := .next (resetState s)

/-- CONFIGURE: `configured <- 1`, "it changes nothing else" (R102). -/
def execConfigure (s : State) : Host.Outcome State Fault Refusal := .next { s with configured := true }

/-- INGEST s (R103). -/
def execIngest (v : Sample) (s : State) : Host.Outcome State Fault Refusal := .next (ingest v s).1

end Sys2Proof.Machine
end

