-- ==== Sys2Proof/Machine/Dispatch.lean ====
section
/-! DEFINITION. One arm per operation of 30_encoding.md R84. -/

namespace Sys2Proof.Machine

def exec (i : Instr) (s : State) : Host.Outcome State Fault Refusal :=
  match i with
  | .reset => Sys2Proof.Machine.execReset s
  | .ingest v => Sys2Proof.Machine.execIngest v s
  | .configure => Sys2Proof.Machine.execConfigure s
  | .rbPush v => Sys2Proof.Machine.execRbPush v s
  | .cdTick => Sys2Proof.Machine.execCdTick s
  | .slThresh => Sys2Proof.Machine.execSlThresh s
  | .slBit k => Sys2Proof.Machine.execSlBit k s
  | .pdDetect => Sys2Proof.Machine.execPdDetect s
  | .fxByte b => Sys2Proof.Machine.execFxByte b s
  | .fxSpan n => Sys2Proof.Machine.execFxSpan n s
  | .brRev x => Sys2Proof.Machine.execBrRev x s
  | .dwSeed ch => Sys2Proof.Machine.execDwSeed ch s
  | .dwStep => Sys2Proof.Machine.execDwStep s
  | .dwRun data n ch => Sys2Proof.Machine.execDwRun data n ch s
  | .aaAsm => Sys2Proof.Machine.execAaAsm s
  | .aaCmp => Sys2Proof.Machine.execAaCmp s
  | .ldLen => Sys2Proof.Machine.execLdLen s
  | .crcInit seed => Sys2Proof.Machine.execCrcInit seed s
  | .crcBit d => Sys2Proof.Machine.execCrcBit d s
  | .crcRun n seed => Sys2Proof.Machine.execCrcRun n seed s
  | .crcRxasm => Sys2Proof.Machine.execCrcRxasm s
  | .crcCmp => Sys2Proof.Machine.execCrcCmp s
  | .feAddr => Sys2Proof.Machine.execFeAddr s
  | .feEmit mac => Sys2Proof.Machine.execFeEmit mac s
  | .cdArm => Sys2Proof.Machine.execCdArm s

end Sys2Proof.Machine
end

