-- ==== Sys2Proof/Machine/Step.lean ====
section
/-! DEFINITION. One step of the block: it takes the next word of the input port and executes it to completion
(40_commands_sequencer.md R100). -/

namespace Sys2Proof.Machine

/-- Execute what a word decodes to, on the state with the word taken. -/
def runDecoded (d : Decoded) (s : State) : Host.Outcome State Fault Refusal :=
  match d with
  | .ok i => exec i s
  | .reject e => ignoreWord e s

/-- One step: one command, "to completion, in the order the enclosing pipeline issues them" (R100). With nothing on
the port the block does nothing. Parameters below the spec's bound are refused (20_memory.md R53). -/
def step (s : State) : Host.Outcome State Fault Refusal :=
  if s.params.legal then
    match takeWord s with
    | none => idle s
    | some (w, t) => runDecoded (decode w) t
  else .refused .illegalParameters

/-- The state with a row's word at the head of the input port, where `step` takes its next word (log 6). -/
def State.withFetchWord (s : State) (nbits w : Nat) : State := placeWord (tablePortWord nbits w) s

end Sys2Proof.Machine
end

