-- ==== Sys2Proof/Safety.lean ====
section
/-! DEFINITION. The terms of the claims: invariants, the window as the rules describe it, the packet as a
transmitter sends it, runs of INGEST. Each is written from the rules, beside the machine and not through it. -/

namespace Sys2Proof.Machine

/-! ### Invariants -/

/-- The queue is a sequence of whole records (10_state.md R37, 30_encoding.md R80). -/
def wholeRecords (p : Params) (q : List TaggedByte) : Prop := ∃ macs : List Mac, q = macs.flatMap (record p)

/-- What every step keeps, unit operations run alone among them: legal parameters, a canonical ring, `0 <= wp < N`,
`0 <= cd <= 20`, whole records (10_state.md R37). -/
structure State.Inv (s : State) : Prop where
  legal : s.params.legal = true
  ring : s.ring.wf s.params = true
  wp : s.wp < s.params.rbSize
  cd : s.cd.toNat ≤ 20
  outq : wholeRecords s.params s.outq

/-- While unconfigured, `wp`, `cd`, `RB` and `OUTQ` hold their reset values (10_state.md R37). It speaks of the
block's own commands: a unit operation run alone may break it. -/
def State.InertAtReset (s : State) : Prop :=
  s.configured = false → s.wp = 0 ∧ s.cd = 0#5 ∧ (∀ i, s.ring.read s.params i = ringInit s.params i) ∧ s.outq = []

/-- Only the block's own commands wait on the port: the block as its host can use it (60_exceptions.md R261). -/
def State.CommandsOnly (s : State) : Prop := ∀ w ∈ s.port, ∃ c, w = .command c

/-- The next word on the port is RESET. -/
def State.NextIsReset (s : State) : Prop := ∃ w ws, s.port = w :: ws ∧ decode w = .ok .reset

/-! ### The window -/

/-- The sample at offset k, in slot `(wp + k) mod N` (20_memory.md R51). -/
def sampleAt (s : State) (k : Nat) : Int := (s.ring.read s.params ((s.wp + k) % s.params.rbSize)).toInt

/-- The sample j sample times old, in slot `(wp - j) mod N` (20_memory.md R54). -/
def newestSample (s : State) (j : Nat) : Int :=
  (s.ring.read s.params (((s.wp : Int) - (j : Int)) % (s.params.rbSize : Int)).toNat).toInt

/-- The exact sum of the 8 newest samples (42_slicer.md R130). -/
def newestSum (s : State) : Int :=
  newestSample s 0 + newestSample s 1 + newestSample s 2 + newestSample s 3 +
  newestSample s 4 + newestSample s 5 + newestSample s 6 + newestSample s 7

/-- Threshold t is the floor of the mean: `8 t <= sum < 8 t + 8` (42_slicer.md R131). -/
def IsFloorMean (t sum : Int) : Prop := 8 * t ≤ sum ∧ sum < 8 * t + 8

/-- The bit at offset k against the threshold the state holds (42_slicer.md R133). -/
def slicedBit (s : State) (k : Nat) : Bool := decide (sampleAt s k > s.thr.toInt)

/-- The bit at offset k against the mean of the 8 newest samples, with no threshold (42_slicer.md R134). -/
def windowBit (s : State) (k : Nat) : Bool := decide (8 * sampleAt s k > newestSum s)

/-- Offsets i and i + 1 differ for how many i in 0..7 (43_preamble.md R140). -/
def transitionCount (bit : Nat → Bool) : Nat :=
  ((List.range 8).filter fun i => bit i != bit (i + 1)).length

/-- Every two neighbours among offsets 0 to 8 differ: a preamble (43_preamble.md R140, R141). -/
def Alternates (bit : Nat → Bool) : Prop := ∀ i < 8, bit i ≠ bit (i + 1)

/-- Offsets 8 to 39 carry the advertising access address, least significant bit first (47_aa_filter_length.md R185,
R186). -/
def CarriesAddress (bit : Nat → Bool) : Prop := ∀ n < 32, bit (8 + n) = (0x8E89BED6#32).getLsbD n

/-- The state `t` has taken the sample `v` into the ring of `s` (41_ingest_cooldown.md R120): `wp` moves on by one
slot, that slot reads as `v`, every other slot as before. -/
def Pushed (v : Sample) (s t : State) : Prop :=
  t.wp = (s.wp + 1) % s.params.rbSize ∧ t.ring.read s.params t.wp = v ∧
  ∀ i, i ≠ t.wp → t.ring.read s.params i = s.ring.read s.params i

/-- Two states whose windows read alike and that otherwise differ at most by where the ring's contents lie:
`wp`, `ring` and `RB_INIT` (10_state.md R22). -/
def SameWindow (s t : State) : Prop :=
  (∀ k, sampleAt s k = sampleAt t k) ∧
  t = { s with wp := t.wp, ring := t.ring, params := { s.params with rbInit := t.params.rbInit } }

/-! ### Bits on the air -/

/-- The bits of bytes in on-air order: bit 7 of each raw byte first (44_field_extractor.md R151, 20_memory.md
R55). -/
def onAirBits (xs : List Byte) : List Bool := xs.flatMap fun x => (List.range 8).map fun c => x.getLsbD (7 - c)

/-- The whitening register after j steps (46_dewhitener.md R172). -/
def lfsrAfter (l : BitVec 8) : Nat → BitVec 8
  | 0 => l
  | j + 1 => lfsrNext (lfsrAfter l j)

/-- The whitening register of a channel after j steps from its seed (46_dewhitener.md R171, R172). -/
def whiteningState (ch : Byte) (j : Nat) : BitVec 8 := lfsrAfter (whitenSeed ch) j

/-- Bit j of the keystream of a channel (46_dewhitener.md R172, R176). -/
def keystreamBit (ch : Byte) (j : Nat) : Bool := (whiteningState ch j).getLsbD 7

/-- The CRC of bytes, taken over their bits in on-air order (48_crc24.md R203). -/
def crcOnAir (seed : BitVec 24) (xs : List Byte) : BitVec 24 := (onAirBits xs).foldl crcNext seed

/-- A packet's body before whitening, as raw bytes: two header bytes and the payload, each bit-reversed, and the CRC
most significant byte first, not reversed (95_test_vectors.md section 0). -/
def packetBody (h0 h1 : Byte) (payload : List Byte) : List Byte :=
  let pdu := (h0 :: h1 :: payload).map rev
  let c := crcOnAir 0x555555#24 pdu
  pdu ++ [c.extractLsb' 16 8, c.extractLsb' 8 8, c.extractLsb' 0 8]

/-- The bits of a packet whitened for channel 38, in on-air order: preamble 01010101, access address least
significant bit first, whitened body (30_encoding.md R81, 95_test_vectors.md section 0). -/
def packetBits (h0 h1 : Byte) (payload : List Byte) : List Bool :=
  [false, true, false, true, false, true, false, true] ++
  (List.range 32).map (fun n => (0x8E89BED6#32).getLsbD n) ++
  (onAirBits (packetBody h0 h1 payload)).zipIdx.map (fun q => q.1 ^^ keystreamBit 38#8 q.2)

/-! ### Writers -/

/-- INGEST, which runs the unit operations, and RESET, which writes everything. -/
def IngestOrReset (i : Instr) : Prop := (∃ v, i = .ingest v) ∨ i = .reset

/-! ### Runs of INGEST -/

/-- The left fold of INGEST over a list of samples (40_commands_sequencer.md R106). -/
def ingestAll (vs : List Sample) (s : State) : State := vs.foldl (fun t v => (ingest v t).1) s

/-- EXECUTE: the words of a buffer of samples (30_encoding.md R88). -/
def executeWords (vs : List Sample) : List PortWord := vs.map fun v => encode (.ingest v)

end Sys2Proof.Machine
end

