-- ==== Sys2Proof/Certificates/Slice0/Obligations.lean ====
section
/-! DEFINITION. The statements for the provers. In the statement of a unit operation,
`t = { s with x := t.x, result := t.result }` says that every field but `x` and `result` is unchanged. `result` is no
field of the block but the model's own (log 8): it holds what the rule calls the operation's result. -/

open Sys2Proof Sys2Proof.Machine

/-- For each of the 25 operations and every value of every operand within its range, the decoder reads from the
operation's port word exactly that operation. The operand field of a unit operation is the model's own layout (log
7). [30_encoding.md section 3 (R84), 30_encoding.md section 1 (R76)] -/
def Obligations.DecodeOfEncodeIsIdentity : Prop :=
  ∀ i : Instr, i.wellFormed = true → decode (encode i) = .ok i

/-- Whatever the decoder accepts is well formed; its encoding is of the same format with the same op field or unit
identifier; and bit for bit the encoding's imm or operand field is the word's in the bits the operation reads and
0 above them (RESET and CONFIGURE read no bit of imm). No bit that is read is dropped and no two words mean one
operation otherwise. The operand field of a unit operation is the model's own layout (log 7). [30_encoding.md
section 1 (R76), 30_encoding.md section 4 (R86)] -/
def Obligations.DecodedWordIsTheEncoding : Prop :=
  ∀ (w : PortWord) (i : Instr), decode w = .ok i → i.wellFormed = true ∧
    match w, encode i with
    | .command c, .command e => commandOp e = commandOp c ∧
        ∀ b < 16, (commandImm e).getLsbD b = (decide (b < i.operandBits) && (commandImm c).getLsbD b)
    | .unitOp id x, .unitOp id' y => id' = id ∧
        ∀ b < 48, y.getLsbD b = (decide (b < i.operandBits) && x.getLsbD b)
    | .command _, .unitOp _ _ => False
    | .unitOp _ _, .command _ => False

/-- For every imm: op 0b00 is RESET, 0b01 is INGEST of imm, 0b10 is CONFIGURE, each whatever imm holds, and 0b11 is
rejected by name. [30_encoding.md section 1 (R76), 30_encoding.md section 4 (R86)] -/
def Obligations.CommandWordFields : Prop :=
  ∀ imm : BitVec 16,
    decode (.command (0b00#2 ++ imm)) = .ok .reset ∧
    decode (.command (0b01#2 ++ imm)) = .ok (.ingest imm) ∧
    decode (.command (0b10#2 ++ imm)) = .ok .configure ∧
    decode (.command (0b11#2 ++ imm)) = .reject .reservedCommand

/-- 0x00000 is RESET, 0x20000 CONFIGURE, 0x10064 INGEST 100, 0x1FF9C INGEST -100, 0x10000 INGEST 0; unit identifiers
0, 9, 14 and 21 are RB.PUSH, DW.STEP, CRC.INIT and CD.ARM; identifiers 22 and 31 are unused. The five command
words are R76's; the unit words carry R84's identifier in the model's own port format, with its operand field all
0 (log 7). [30_encoding.md section 1 (R76), 30_encoding.md section 3 (R84), 30_encoding.md section 4 (R86)] -/
def Obligations.SpecWordsDecode : Prop :=
  decode (.command 0x00000#18) = .ok .reset ∧
  decode (.command 0x20000#18) = .ok .configure ∧
  decode (.command 0x10064#18) = .ok (.ingest (BitVec.ofInt 16 100)) ∧
  decode (.command 0x1FF9C#18) = .ok (.ingest (BitVec.ofInt 16 (-100))) ∧
  decode (.command 0x10000#18) = .ok (.ingest 0#16) ∧
  decode (.unitOp 0#5 0#48) = .ok (.rbPush 0#16) ∧
  decode (.unitOp 9#5 0#48) = .ok .dwStep ∧
  decode (.unitOp 14#5 0#48) = .ok (.crcInit 0#24) ∧
  decode (.unitOp 21#5 0#48) = .ok .cdArm ∧
  decode (.unitOp 22#5 0#48) = .reject .unusedUnitId ∧
  decode (.unitOp 31#5 0#48) = .reject .unusedUnitId

/-- With legal parameters and a word at the head of the port that decodes to i, step is exec i on the state with that
word taken. The port is the model's own (log 6). [40_commands_sequencer.md section 1 (R100)] -/
def Obligations.StepRunsTheDecodedOperation : Prop :=
  ∀ (s : State) (w : PortWord) (ws : List PortWord) (i : Instr),
    s.params.legal = true → s.port = w :: ws → decode w = .ok i → step s = exec i { s with port := ws }

/-- If the row's word decodes to i, then step of the state with that word placed is exec i of the state itself.
Placing is the model's own (log 6). [40_commands_sequencer.md section 1 (R100), 30_encoding.md section 3 (R84)] -/
def Obligations.PlacedTableWordRuns : Prop :=
  ∀ (s : State) (nbits w : Nat) (i : Instr), s.params.legal = true → decodeTableWord nbits w = some i →
    step (s.withFetchWord nbits w) = exec i s

/-- With legal parameters, a reserved command word at the head of the port is removed and nothing else changes,
whatever its imm. That the model ignores it and does not refuse it is log 9. [30_encoding.md section 4 (R86 (a)),
93_implementation_defined.md U1] -/
def Obligations.ReservedCommandIsIgnored : Prop :=
  ∀ (s : State) (imm : BitVec 16) (ws : List PortWord), s.params.legal = true →
    s.port = .command (0b11#2 ++ imm) :: ws → step s = .next { s with port := ws }

/-- With legal parameters and nothing on the port, a step leaves the state as it is; with fewer than 584 slots every
step is refused. Stepping with nothing on the port is the model's own (log 6). [20_memory.md section 1 (R53),
70_reset_and_hazards.md section 1 (R270), 93_implementation_defined.md U8] -/
def Obligations.IdleAndIllegalRing : Prop :=
  ∀ s : State, (584 ≤ s.params.rbSize → s.port = [] → step s = .next s) ∧
    (s.params.rbSize < 584 → step s = .refused .illegalParameters)

/-- With the INGEST words of a buffer at the head of the port, as many steps as the buffer has samples leave the left
fold of INGEST over the buffer, with exactly the words behind it still on the port: each sample is taken once, in
order. The port is the model's own (log 6). [40_commands_sequencer.md section 1 (R106), 30_encoding.md section 6
(R88)] -/
def Obligations.ExecuteIsTheFoldOfIngest : Prop :=
  ∀ (s : State) (vs : List Sample) (ws : List PortWord), s.params.legal = true →
    Sys2Proof.core.run vs.length ({ s with port := executeWords vs ++ ws } : State) =
      .next (ingestAll vs { s with port := ws })

/-- From every state RESET answers a next state with configured, wp, cd and thr 0, every ring slot reading RB_INIT and
OUTQ empty; and from any other state with the same parameters it leaves the same values of all of these. (Working
registers are unspecified: nothing is said of them.) [R101] -/
def Obligations.ResetRestoresTheResetState : Prop :=
  ∀ s : State, ∃ t, exec .reset s = .next t ∧
    t.configured = false ∧ t.wp = 0 ∧ t.cd = 0#5 ∧ t.thr = 0#16 ∧
    (∀ i, t.ring.read s.params i = ringInit s.params i) ∧ t.outq = [] ∧
    ∀ s' : State, s'.params = s.params → ∃ t', exec .reset s' = .next t' ∧
      t'.configured = t.configured ∧ t'.wp = t.wp ∧ t'.cd = t.cd ∧ t'.thr = t.thr ∧ t'.ring = t.ring ∧
      t'.outq = t.outq

/-- From every state CONFIGURE answers the same state with configured 1; where configured is already 1 it answers the
state itself. [R102] -/
def Obligations.ConfigureSetsOnlyTheFlag : Prop :=
  ∀ s : State, exec .configure s = .next { s with configured := true } ∧
    (s.configured = true → exec .configure s = .next s)

/-- While configured is 0, INGEST of any sample answers the state itself. [R241] -/
def Obligations.IngestBeforeConfigureIsInert : Prop :=
  ∀ (s : State) (v : Sample), s.configured = false → exec (.ingest v) s = .next s

/-- Configured and cd not 0: INGEST answers a state in which the sample is in the ring one slot on, every other slot
reads as before, cd is one less, and every other field (thr, OUTQ, the working registers) is unchanged.
[40_commands_sequencer.md section 2 (R104, R107), 41_ingest_cooldown.md (R121)] -/
def Obligations.IngestWhileCoolingDown : Prop :=
  ∀ (s : State) (v : Sample), s.configured = true → s.cd ≠ 0#5 →
    ∃ t, exec (.ingest v) s = .next t ∧ Pushed v s t ∧ t.cd.toNat + 1 = s.cd.toNat ∧
      t = { s with wp := t.wp, ring := t.ring, cd := t.cd }

/-- Configured, cd 0, and the 9 window bits after the push do not alternate: INGEST answers a state with the sample
pushed, thr the floor of the mean of the 8 newest samples, trans the number of transitions, and every other field
unchanged (cd stays 0, OUTQ unchanged). [60_exceptions.md section 1 (R242), 40_commands_sequencer.md section 2
(R104, R107), 42_slicer.md (R130, R134)] -/
def Obligations.IngestWithoutPreamble : Prop :=
  ∀ (s : State) (v : Sample), s.configured = true → s.cd = 0#5 →
    ¬ Alternates (windowBit (pushSample v s)) →
    ∃ t, exec (.ingest v) s = .next t ∧ Pushed v s t ∧ IsFloorMean t.thr.toInt (newestSum t) ∧
      t.trans.toNat = transitionCount (windowBit t) ∧
      t = { s with wp := t.wp, ring := t.ring, thr := t.thr, trans := t.trans }

/-- Configured, cd 0, the 9 window bits alternate, and offsets 8 to 39 do not carry 0x8E89BED6: INGEST answers a state
with the sample pushed, thr the floor mean, trans 8, aa the 32 window bits from offset 8 least significant first,
and every other field unchanged (cd stays 0; PKT, hdr, len and OUTQ untouched). [60_exceptions.md section 1
(R243), 47_aa_filter_length.md section 1 (R185, R186), 40_commands_sequencer.md section 2 (R104, R107)] -/
def Obligations.IngestWithWrongAddress : Prop :=
  ∀ (s : State) (v : Sample), s.configured = true → s.cd = 0#5 →
    Alternates (windowBit (pushSample v s)) → ¬ CarriesAddress (windowBit (pushSample v s)) →
    ∃ t, exec (.ingest v) s = .next t ∧ Pushed v s t ∧ IsFloorMean t.thr.toInt (newestSum t) ∧
      t.trans = 8#4 ∧ (∀ n < 32, t.aa.getLsbD n = windowBit t (8 + n)) ∧
      t = { s with wp := t.wp, ring := t.ring, thr := t.thr, trans := t.trans, aa := t.aa }

/-- Configured, cd 0, preamble and address 0x8E89BED6 in the window: INGEST answers a state with the sample pushed,
thr the floor mean, trans 8, aa 0x8E89BED6, cd 20; PKT entry i below len + 5 is the window byte at offset 40 + 8 i
dewhitened with the channel-38 keystream, bit by bit; hdr equals PKT[0..1]; len is the low 6 bits of hdr[1]
reversed; crc and calc are the CRC of PKT[0 .. len+1] in on-air order from 0x555555; rx is PKT[len+2 .. len+4],
first byte most significant; lfsr is the register after 8 (len + 5) steps; parameters, port, configured and result
are unchanged. [40_commands_sequencer.md section 2 (R104, R107), 46_dewhitener.md (R173, R176),
47_aa_filter_length.md section 2 (R190), 48_crc24.md (R203, R204), 49_field_emitter.md (R226)] -/
def Obligations.IngestProcessesTheCandidate : Prop :=
  ∀ (s : State) (v : Sample), s.configured = true → s.cd = 0#5 →
    Alternates (windowBit (pushSample v s)) → CarriesAddress (windowBit (pushSample v s)) →
    ∃ t, exec (.ingest v) s = .next t ∧ Pushed v s t ∧ IsFloorMean t.thr.toInt (newestSum t) ∧
      t.trans = 8#4 ∧ t.aa = 0x8E89BED6#32 ∧ t.cd = 20#5 ∧
      (∀ i < t.len.toNat + 5, ∀ c < 8, (t.pkt.toList.getD i 0#8).getLsbD (7 - c) =
        (windowBit t (40 + 8 * i + c) ^^ keystreamBit 38#8 (8 * i + c))) ∧
      t.hdr[0] = t.pkt[0] ∧ t.hdr[1] = t.pkt[1] ∧
      (∀ i < 6, t.len.getLsbD i = t.hdr[1].getLsbD (7 - i)) ∧
      t.calcCrc = crcOnAir 0x555555#24 (t.pkt.toList.take (t.len.toNat + 2)) ∧ t.crc = t.calcCrc ∧
      t.rxCrc.toNat = (t.pkt.toList.getD (t.len.toNat + 2) 0#8).toNat * 65536 +
        (t.pkt.toList.getD (t.len.toNat + 3) 0#8).toNat * 256 + (t.pkt.toList.getD (t.len.toNat + 4) 0#8).toNat ∧
      t.lfsr = whiteningState 38#8 (8 * (t.len.toNat + 5)) ∧
      t.params = s.params ∧ t.port = s.port ∧ t.configured = true ∧ t.result = s.result

/-- Configured, cd 0, preamble and address in the window: INGEST answers a state with cd 20; if calc equals rx, OUTQ
has gained exactly start marker, the reversed bytes PKT[7] down to PKT[2] as data, end marker; if not, OUTQ is
unchanged. [40_commands_sequencer.md section 2 (R104, R107), 60_exceptions.md section 1 (R244),
49_field_emitter.md (R221, R223, R226)] -/
def Obligations.IngestDecidesByTheCrc : Prop :=
  ∀ (s : State) (v : Sample), s.configured = true → s.cd = 0#5 →
    Alternates (windowBit (pushSample v s)) → CarriesAddress (windowBit (pushSample v s)) →
    ∃ t, exec (.ingest v) s = .next t ∧ t.cd = 20#5 ∧
      (t.calcCrc = t.rxCrc → t.outq = s.outq ++
        [⟨false, s.params.markStart⟩, ⟨true, rev t.pkt[7]⟩, ⟨true, rev t.pkt[6]⟩, ⟨true, rev t.pkt[5]⟩,
         ⟨true, rev t.pkt[4]⟩, ⟨true, rev t.pkt[3]⟩, ⟨true, rev t.pkt[2]⟩, ⟨false, s.params.markEnd⟩]) ∧
      (t.calcCrc ≠ t.rxCrc → t.outq = s.outq)

/-- With only commands on the port, if a step leaves an OUTQ that is neither the old one nor empty, then the block was
configured and eligible, the step's command was INGEST, trans is 8, aa is 0x8E89BED6, calc equals rx, and OUTQ
gained exactly one record of 8 entries. [48_crc24.md (R206), 49_field_emitter.md (R220)] -/
def Obligations.EmissionNeedsEveryTest : Prop :=
  ∀ s t : State, s.CommandsOnly → step s = .next t → t.outq ≠ s.outq → t.outq ≠ [] →
    s.configured = true ∧ s.cd = 0#5 ∧ (∃ v ws, s.port = encode (.ingest v) :: ws) ∧
    t.trans = 8#4 ∧ t.aa = 0x8E89BED6#32 ∧ t.calcCrc = t.rxCrc ∧
    ∃ m : Mac, t.outq = s.outq ++ record s.params m ∧ (record s.params m).length = 8

/-- For every header, every payload of 6 to 63 bytes and every sample: if the window after the push carries the
packet's bits (preamble, access address, PDU and CRC whitened for channel 38) and the block is configured with cd
0, INGEST answers a state with cd 20, len the payload's length and OUTQ extended by start marker, payload bytes 5
down to 0 as data, end marker. Payloads below 6 bytes are left to the statement IngestDecidesByTheCrc. The
whitening tap, the address byte order and the CRC orders are the spec's, from general knowledge (log 14).
[95_test_vectors.md section 1 T6, 40_commands_sequencer.md section 2 (R104), 30_encoding.md section 1 (R81),
49_field_emitter.md (R221, R223)] -/
def Obligations.ConformingPacketIsReceived : Prop :=
  ∀ (s : State) (v : Sample) (h0 h1 : Byte) (payload : List Byte),
    s.configured = true → s.cd = 0#5 → 6 ≤ payload.length → payload.length ≤ 63 →
    h1.toNat % 64 = payload.length →
    (∀ k b, (packetBits h0 h1 payload)[k]? = some b → windowBit (pushSample v s) k = b) →
    ∃ t, exec (.ingest v) s = .next t ∧ t.cd = 20#5 ∧ t.len.toNat = payload.length ∧
      t.outq = s.outq ++
        [⟨false, s.params.markStart⟩, ⟨true, payload.getD 5 0#8⟩, ⟨true, payload.getD 4 0#8⟩,
         ⟨true, payload.getD 3 0#8⟩, ⟨true, payload.getD 2 0#8⟩, ⟨true, payload.getD 1 0#8⟩,
         ⟨true, payload.getD 0 0#8⟩, ⟨false, s.params.markEnd⟩]

/-- Configured and cd 0: INGEST answers a state whose cd is 20 if and only if the window bits at offsets 0 to 39 are
01010101 and then 01101011 01111101 10010001 01110001; otherwise cd is 0. [47_aa_filter_length.md section 1
(R187), 49_field_emitter.md (R226)] -/
def Obligations.MatchingWindow : Prop :=
  ∀ (s : State) (v : Sample), s.configured = true → s.cd = 0#5 →
    ∃ t, exec (.ingest v) s = .next t ∧
      (t.cd = 20#5 ↔ (List.range 40).map (windowBit t) =
        [false, true, false, true, false, true, false, true, false, true, true, false, true, false, true, true,
         false, true, true, true, true, true, false, true, true, false, false, true, false, false, false, true,
         false, true, true, true, false, false, false, true]) ∧
      (t.cd ≠ 20#5 → t.cd = 0#5)

/-- From a configured state with cd 20, after n of the following INGESTs with n at most 20, cd is 20 - n and OUTQ, thr
and every working register are as they were; so after 20 of them cd is 0. That thr and the working registers stay
is R121 (nothing else happens after the push and the tick) and, for the working registers, the model's reading
(log 10). [41_ingest_cooldown.md (R121, R122, R123), 40_commands_sequencer.md section 2 (R107)] -/
def Obligations.CooldownLastsTwentyIngests : Prop :=
  ∀ (s : State) (vs : List Sample), s.configured = true → s.cd = 20#5 → vs.length ≤ 20 →
    (ingestAll vs s).cd.toNat = 20 - vs.length ∧
    ingestAll vs s = { s with
      wp := (ingestAll vs s).wp, ring := (ingestAll vs s).ring, cd := (ingestAll vs s).cd }

/-- From every state, 21 INGESTs leave OUTQ at most 8 entries longer, and the old entries are a prefix of the new
ones. [70_reset_and_hazards.md section 2 (R280), 41_ingest_cooldown.md (R123)] -/
def Obligations.AtMostOneRecordPerTwentyOneIngests : Prop :=
  ∀ (s : State) (vs : List Sample), vs.length = 21 →
    ∃ q, (ingestAll vs s).outq = s.outq ++ q ∧ q.length ≤ 8

/-- After T >= 1 INGESTs of a configured block, offset 0 holds the newest sample; offset k from 1 to N - 1 holds the
sample of time T - N + k where that is at least 1, and otherwise what its slot held before the run; wp has
advanced by T modulo N. [20_memory.md section 1 (R51, R52), 41_ingest_cooldown.md (R120)] -/
def Obligations.WindowInTime : Prop :=
  ∀ (s : State) (vs : List Sample) (k : Nat), s.params.legal = true → s.configured = true → 0 < vs.length →
    k < s.params.rbSize →
    (ingestAll vs s).wp = (s.wp + vs.length) % s.params.rbSize ∧
    sampleAt (ingestAll vs s) k =
      if k = 0 then (vs.getD (vs.length - 1) 0#16).toInt
      else if s.params.rbSize < vs.length + k then (vs.getD (vs.length + k - s.params.rbSize - 1) 0#16).toInt
      else (s.ring.read s.params (((ingestAll vs s).wp + k) % s.params.rbSize)).toInt

/-- From the configured reset state of any legal parameters whose RB_INIT is one value throughout, any number of
INGESTs of one sample c leaves OUTQ empty and cd 0; from 8 of them on thr is c; from N of them on trans is 0.
[95_test_vectors.md section 1 T1, 90_conflicts.md C7, 70_reset_and_hazards.md section 1 (R276)] -/
def Obligations.ConstantInputIsNeverAPreamble : Prop :=
  ∀ (p : Params) (a c : Sample) (n : Nat), p.legal = true → (∀ i < p.rbSize, ringInit p i = a) →
    let t := ingestAll (List.replicate n c) { State.resetWith p with configured := true }
    t.outq = [] ∧ t.cd = 0#5 ∧ (8 ≤ n → t.thr = c) ∧ (p.rbSize ≤ n → t.trans = 0#4)

/-- If two states read the same sample at every offset and differ otherwise only by where the ring's contents lie,
INGEST of any sample answers next states of both, again of that relation: equal outputs, counters and working
registers. Nothing is said of the other operations. [10_state.md section 2 (R22), 20_memory.md section 1 (R51)] -/
def Obligations.RotationIsInvisible : Prop :=
  ∀ (s s' : State) (v : Sample), s.params.legal = true → SameWindow s s' →
    ∃ t t', exec (.ingest v) s = .next t ∧ exec (.ingest v) s' = .next t' ∧ SameWindow t t'

/-- If two states differ at most in thr, lfsr, crc, aa, hdr, len, trans, calc, rx, PKT and the last unit result,
INGEST answers next states with the same configured, wp, cd, ring and OUTQ, and the same thr if it searched.
[10_state.md section 2 (R24), 10_state.md section 3 (R27 to R30), 93_implementation_defined.md U4 and U6] -/
def Obligations.WorkingRegistersAreNotReadAcrossIngests : Prop :=
  ∀ (s s' : State) (v : Sample),
    s' = { s with thr := s'.thr, lfsr := s'.lfsr, crc := s'.crc, aa := s'.aa, hdr := s'.hdr, len := s'.len,
                  trans := s'.trans, calcCrc := s'.calcCrc, rxCrc := s'.rxCrc, pkt := s'.pkt, result := s'.result } →
    ∃ t t', exec (.ingest v) s = .next t ∧ exec (.ingest v) s' = .next t' ∧
      t.configured = t'.configured ∧ t.wp = t'.wp ∧ t.cd = t'.cd ∧ t.ring = t'.ring ∧ t.outq = t'.outq ∧
      (s.configured = true → s.cd = 0#5 → t.thr = t'.thr)

/-- Whatever operation answers a next state: params and port are unchanged, and each register that differs after it
was written by one of its listed writers, by INGEST, which runs them, or by RESET. [10_state.md section 1 (R39),
10_state.md section 5 (R34)] -/
def Obligations.OnlyTheWritersWrite : Prop :=
  ∀ (i : Instr) (s t : State), exec i s = .next t →
    t.params = s.params ∧ t.port = s.port ∧
    (t.configured ≠ s.configured → i = .configure ∨ i = .reset) ∧
    (t.wp ≠ s.wp → (∃ v, i = .rbPush v) ∨ IngestOrReset i) ∧
    (t.ring ≠ s.ring → (∃ v, i = .rbPush v) ∨ IngestOrReset i) ∧
    (t.thr ≠ s.thr → i = .slThresh ∨ IngestOrReset i) ∧
    (t.cd ≠ s.cd → i = .cdTick ∨ i = .cdArm ∨ IngestOrReset i) ∧
    (t.outq ≠ s.outq → (∃ m, i = .feEmit m) ∨ IngestOrReset i) ∧
    (t.lfsr ≠ s.lfsr → (∃ ch, i = .dwSeed ch) ∨ i = .dwStep ∨ (∃ b n ch, i = .dwRun b n ch) ∨ IngestOrReset i) ∧
    (t.crc ≠ s.crc → (∃ x, i = .crcInit x) ∨ (∃ d, i = .crcBit d) ∨ (∃ n x, i = .crcRun n x) ∨ IngestOrReset i) ∧
    (t.aa ≠ s.aa → i = .aaAsm ∨ IngestOrReset i) ∧
    (t.hdr ≠ s.hdr → (∃ n ch, i = .dwRun .hdr n ch) ∨ IngestOrReset i) ∧
    (t.len ≠ s.len → i = .ldLen ∨ IngestOrReset i) ∧
    (t.trans ≠ s.trans → i = .pdDetect ∨ IngestOrReset i) ∧
    (t.calcCrc ≠ s.calcCrc → (∃ n x, i = .crcRun n x) ∨ IngestOrReset i) ∧
    (t.rxCrc ≠ s.rxCrc → i = .crcRxasm ∨ IngestOrReset i) ∧
    (t.pkt ≠ s.pkt → (∃ n, i = .fxSpan n) ∨ (∃ n ch, i = .dwRun .pkt n ch) ∨ IngestOrReset i)

/-- For every legal parameters the reset state has a canonical ring, wp below N, cd at most 20 and whole records in
OUTQ, and it holds its reset values while unconfigured. [10_state.md section 6 (R36, R37)] -/
def Obligations.InvariantHoldsAfterReset : Prop :=
  ∀ p : Params, p.legal = true → (State.resetWith p).Inv ∧ (State.resetWith p).InertAtReset

/-- From every state with the invariant, whatever word the port holds, a step that answers a next state answers one
with the invariant. [10_state.md section 6 (R37)] -/
def Obligations.EveryStepKeepsTheInvariant : Prop :=
  ∀ s t : State, s.Inv → step s = .next t → t.Inv

/-- From a state with the invariant, inert at reset values while unconfigured and with only commands on the port, a
step that goes on keeps all three; if configured went from 1 to 0 the command was RESET; and unless it was RESET,
OUTQ has only grown. [10_state.md section 6 (R37), 10_state.md section 2 (R26, R33)] -/
def Obligations.CommandStepsKeepTheReachableStateFacts : Prop :=
  ∀ s t : State, s.Inv → s.InertAtReset → s.CommandsOnly → step s = .next t →
    t.Inv ∧ t.InertAtReset ∧ t.CommandsOnly ∧
    (s.configured = true → t.configured = false → s.NextIsReset) ∧
    (¬ s.NextIsReset → ∃ q, t.outq = s.outq ++ q)

/-- From every state RB.PUSH s answers a state with wp one slot on modulo N, that slot reading as s, every other slot
as before, and every other field of the block unchanged. [R120] -/
def Obligations.PushWritesTheNextSlot : Prop :=
  ∀ (s : State) (v : Sample), ∃ t, exec (.rbPush v) s = .next t ∧
    t.wp = (s.wp + 1) % s.params.rbSize ∧ t.ring.read s.params t.wp = v ∧
    (∀ i, i ≠ t.wp → t.ring.read s.params i = s.ring.read s.params i) ∧
    t = { s with wp := t.wp, ring := t.ring, result := t.result }

/-- From every state CD.TICK hands back whether cd was 0 and leaves cd one less, or 0 where it was 0; every other
field of the block is unchanged. [R121, R122] -/
def Obligations.TickTestsThenDecrements : Prop :=
  ∀ s : State, ∃ t, exec .cdTick s = .next t ∧
    t.result = .bit (decide (s.cd.toNat = 0)) ∧
    (s.cd.toNat = 0 → t.cd.toNat = 0) ∧ (0 < s.cd.toNat → t.cd.toNat + 1 = s.cd.toNat) ∧
    t = { s with cd := t.cd, result := t.result }

/-- From every state SL.THRESH leaves thr with 8 thr <= sum < 8 thr + 8, sum being the exact sum of the samples in
slots (wp - j) mod N for j from 0 to 7; no sum overflows; every other field of the block is unchanged.
[42_slicer.md (R130, R131), 20_memory.md section 1 (R54), 00_scope.md section 4 (R10)] -/
def Obligations.ThresholdIsTheFloorOfTheMean : Prop :=
  ∀ s : State, ∃ t, exec .slThresh s = .next t ∧
    8 * t.thr.toInt ≤ newestSum s ∧ newestSum s < 8 * t.thr.toInt + 8 ∧
    t = { s with thr := t.thr, result := t.result }

/-- From every state and for every offset SL.BIT k hands back whether the sample in slot (wp + k) mod N, signed, is
strictly above thr, signed; no field of the block changes. [R133] -/
def Obligations.SliceIsAStrictSignedComparison : Prop :=
  ∀ (s : State) (k : Nat), ∃ t, exec (.slBit k) s = .next t ∧
    t.result = .bit (decide ((s.ring.read s.params ((s.wp + k) % s.params.rbSize)).toInt > s.thr.toInt)) ∧
    t = { s with result := t.result }

/-- From every state, SL.THRESH and then SL.BIT k hand back 1 exactly when 8 times the sample at offset k is above the
exact sum of the 8 newest samples: the floor loses no bit. [42_slicer.md (R131, R134)] -/
def Obligations.SliceAgainstTheExactMean : Prop :=
  ∀ (s : State) (k : Nat), ∃ t u, exec .slThresh s = .next t ∧ exec (.slBit k) t = .next u ∧
    u.result = .bit (decide (8 * sampleAt s k > newestSum s))

/-- From every state PD.DETECT leaves trans equal to the number of i in 0..7 with different sliced bits at offsets i
and i + 1, hands back whether it is 8, and changes no other field. [43_preamble.md (R140, R142), 10_state.md
section 4 (R31)] -/
def Obligations.DetectCountsTransitions : Prop :=
  ∀ s : State, ∃ t, exec .pdDetect s = .next t ∧
    t.trans.toNat = transitionCount (slicedBit s) ∧
    t.result = .bit (decide (transitionCount (slicedBit s) = 8)) ∧
    t = { s with trans := t.trans, result := t.result }

/-- From every state PD.DETECT hands back 1 exactly when the nine sliced bits are 0,1,0,1,0,1,0,1,0 or
1,0,1,0,1,0,1,0,1. [43_preamble.md (R141)] -/
def Obligations.DetectAcceptsExactlyTwoPatterns : Prop :=
  ∀ s : State, ∃ t b, exec .pdDetect s = .next t ∧ t.result = .bit b ∧
    (b = true ↔ (List.range 9).map (slicedBit s) = [false, true, false, true, false, true, false, true, false] ∨
      (List.range 9).map (slicedBit s) = [true, false, true, false, true, false, true, false, true])

/-- From every state and for every offset b FX.BYTE b hands back the byte whose bit 7 - c is the sliced bit at offset
b + c for c from 0 to 7; no field of the block changes. [R151] -/
def Obligations.ExtractByteMsbFirst : Prop :=
  ∀ (s : State) (b : Nat), ∃ t x, exec (.fxByte b) s = .next t ∧ t.result = .byte x ∧
    (∀ c < 8, x.getLsbD (7 - c) = slicedBit s (b + c)) ∧ t = { s with result := t.result }

/-- For every n up to 68 FX.SPAN n answers a state whose PKT entry t below n is the raw byte at bit offset 40 + 8 t,
bit by bit, whose entries from n upward are unchanged, and whose other fields of the block are unchanged. The rule
calls the entries from n upward unspecified; that they keep what they hold is the model's (log 5).
[44_field_extractor.md (R153), 20_memory.md section 4 (R64)] -/
def Obligations.ExtractSpanFillsPkt : Prop :=
  ∀ (s : State) (n : Nat), n ≤ 68 → ∃ t, exec (.fxSpan n) s = .next t ∧
    (∀ i < 68, ∀ c < 8, i < n → (t.pkt.toList.getD i 0#8).getLsbD (7 - c) = slicedBit s (40 + 8 * i + c)) ∧
    (∀ i < 68, n ≤ i → t.pkt.toList.getD i 0#8 = s.pkt.toList.getD i 0#8) ∧
    t = { s with pkt := t.pkt, result := t.result }

/-- From every state BR.REV x hands back the byte y with bit 7 - i of y equal to bit i of x, and BR.REV y hands back
x; no field of the block changes. [R160, R161] -/
def Obligations.BitReversal : Prop :=
  ∀ (s : State) (x : Byte), ∃ t u y, exec (.brRev x) s = .next t ∧ t.result = .byte y ∧
    (∀ i < 8, y.getLsbD (7 - i) = x.getLsbD i) ∧ t = { s with result := t.result } ∧
    exec (.brRev y) s = .next u ∧ u.result = .byte x

/-- From every state DW.SEED ch leaves lfsr with bit 1 set and every other bit i equal to bit 7 - i of ch; every other
field of the block is unchanged. [R171] -/
def Obligations.SeedIsTheReversedChannel : Prop :=
  ∀ (s : State) (ch : Byte), ∃ t, exec (.dwSeed ch) s = .next t ∧
    (∀ i < 8, t.lfsr.getLsbD i = (decide (i = 1) || ch.getLsbD (7 - i))) ∧
    t = { s with lfsr := t.lfsr, result := t.result }

/-- From every state DW.STEP hands back bit 7 of lfsr and leaves lfsr with bit 0 clear, bits 1 and 5 the old bits 0
and 4 XOR the old bit 7, and every other bit i the old bit i - 1; every other field of the block is unchanged. The
tap 0x11 is the spec's, from general knowledge (log 14). [46_dewhitener.md (R172, R175)] -/
def Obligations.WhiteningStep : Prop :=
  ∀ s : State, ∃ t, exec .dwStep s = .next t ∧ t.result = .bit (s.lfsr.getLsbD 7) ∧
    t.lfsr.getLsbD 0 = false ∧ t.lfsr.getLsbD 1 = (s.lfsr.getLsbD 0 ^^ s.lfsr.getLsbD 7) ∧
    t.lfsr.getLsbD 5 = (s.lfsr.getLsbD 4 ^^ s.lfsr.getLsbD 7) ∧
    (∀ i < 8, i ≠ 0 → i ≠ 1 → i ≠ 5 → t.lfsr.getLsbD i = s.lfsr.getLsbD (i - 1)) ∧
    t = { s with lfsr := t.lfsr, result := t.result }

/-- For every channel below 64 the register equals its seed after 127 steps and after no fewer: the whitening sequence
has period 127 bits. [46_dewhitener.md (R171, R172, R173)] -/
def Obligations.WhiteningPeriod : Prop :=
  ∀ ch : Byte, ch.toNat < 64 → whiteningState ch 127 = whiteningState ch 0 ∧
    ∀ j, 0 < j → j < 127 → whiteningState ch j ≠ whiteningState ch 0

/-- For either buffer and every n up to its capacity DW.RUN data, n, ch answers a state in which bit 7 - c of byte k <
n of that buffer is the old bit XOR keystream bit 8 k + c of the channel, bytes from n upward and the other buffer
are unchanged, lfsr is the register after 8 n steps from the seed, and every other field of the block is
unchanged. [46_dewhitener.md (R173, R176)] -/
def Obligations.WhiteningRunXorsTheKeystream : Prop :=
  ∀ (s : State) (data : Buffer) (n : Nat) (ch : Byte), n ≤ data.cap →
    ∃ t, exec (.dwRun data n ch) s = .next t ∧
      (∀ k < n, ∀ c < 8, ((bufferBytes t data).getD k 0#8).getLsbD (7 - c) =
        (((bufferBytes s data).getD k 0#8).getLsbD (7 - c) ^^ keystreamBit ch (8 * k + c))) ∧
      (∀ k, n ≤ k → (bufferBytes t data).getD k 0#8 = (bufferBytes s data).getD k 0#8) ∧
      (∀ other, other ≠ data → bufferBytes t other = bufferBytes s other) ∧
      t.lfsr = whiteningState ch (8 * n) ∧
      t = { s with hdr := t.hdr, pkt := t.pkt, lfsr := t.lfsr, result := t.result }

/-- For either buffer, every n up to its capacity and every channel, DW.RUN and DW.RUN again leave both buffers as
they were. [R174] -/
def Obligations.WhiteningIsAnInvolution : Prop :=
  ∀ (s : State) (data : Buffer) (n : Nat) (ch : Byte), n ≤ data.cap →
    ∃ t u, exec (.dwRun data n ch) s = .next t ∧ exec (.dwRun data n ch) t = .next u ∧
      u.hdr = s.hdr ∧ u.pkt = s.pkt ∧ u.lfsr = t.lfsr

/-- From every state AA.ASM leaves aa with bit n equal to the sliced bit at offset 8 + n for n from 0 to 31 (each raw
byte reversed, first byte least significant); every other field of the block is unchanged. The byte order is the
spec's, from general knowledge (log 14). [47_aa_filter_length.md section 1 (R185)] -/
def Obligations.AddressAssembly : Prop :=
  ∀ s : State, ∃ t, exec .aaAsm s = .next t ∧ (∀ n < 32, t.aa.getLsbD n = slicedBit s (8 + n)) ∧
    t = { s with aa := t.aa, result := t.result }

/-- From every state AA.CMP hands back whether aa is 0x8E89BED6 and CRC.CMP whether calc equals rx; no field of the
block changes. [47_aa_filter_length.md section 1 (R186), 48_crc24.md (R205), 10_state.md section 4 (R31)] -/
def Obligations.ComparisonsOnlyRead : Prop :=
  ∀ s : State, (∃ t, exec .aaCmp s = .next t ∧ t.result = .bit (decide (s.aa.toNat = 0x8E89BED6)) ∧
      t = { s with result := t.result }) ∧
    (∃ t, exec .crcCmp s = .next t ∧ t.result = .bit (decide (s.calcCrc.toNat = s.rxCrc.toNat)) ∧
      t = { s with result := t.result })

/-- From every state LD.LEN leaves len with bit i equal to bit 7 - i of the second header byte; its two high reversed
bits are ignored; every other field of the block is unchanged. [R190] -/
def Obligations.LengthIsSixReversedBits : Prop :=
  ∀ s : State, ∃ t, exec .ldLen s = .next t ∧ (∀ i < 6, t.len.getLsbD i = s.hdr[1].getLsbD (7 - i)) ∧
    t = { s with len := t.len, result := t.result }

/-- From every state CRC.INIT leaves crc equal to its seed and every other field of the block unchanged. [R201] -/
def Obligations.CrcSeedLoads : Prop :=
  ∀ (s : State) (seed : BitVec 24), ∃ t, exec (.crcInit seed) s = .next t ∧ t.crc = seed ∧
    t = { s with crc := t.crc, result := t.result }

/-- From every state CRC.BIT d leaves crc with bit i equal to the old bit i - 1 (0 for i = 0), flipped at the bits of
0x00065B when the old bit 23 differs from d; every other field of the block is unchanged. [R202] -/
def Obligations.CrcShift : Prop :=
  ∀ (s : State) (d : Bool), ∃ t, exec (.crcBit d) s = .next t ∧
    (∀ i < 24, t.crc.getLsbD i = ((decide (0 < i) && s.crc.getLsbD (i - 1)) ^^
      ((0x00065B#24).getLsbD i && (s.crc.getLsbD 23 != d)))) ∧
    t = { s with crc := t.crc, result := t.result }

/-- For every n up to 68 CRC.RUN n, seed answers a state whose crc, calc and result are the register after taking the
bits of the first n bytes of PKT in on-air order; PKT and every other field are unchanged. The order is the
spec's, from general knowledge (log 14). [48_crc24.md (R203)] -/
def Obligations.CrcConsumesOnAirOrder : Prop :=
  ∀ (s : State) (n : Nat) (seed : BitVec 24), n ≤ 68 → ∃ t, exec (.crcRun n seed) s = .next t ∧
    t.calcCrc = (onAirBits (s.pkt.toList.take n)).foldl crcNext seed ∧ t.crc = t.calcCrc ∧
    t.result = .word24 t.calcCrc ∧ t = { s with crc := t.crc, calcCrc := t.calcCrc, result := t.result }

/-- If the PKT of a third state is the XOR of those of two others, the calc of CRC.RUN with the XORed seed is the XOR
of their calcs; and with seed 0 and all-zero data calc is 0. [48_crc24.md (R207 (c), (d))] -/
def Obligations.CrcIsLinear : Prop :=
  ∀ (s1 s2 s3 : State) (n : Nat) (a b : BitVec 24), n ≤ 68 →
    (∀ i (h : i < 68), s3.pkt[i] = s1.pkt[i] ^^^ s2.pkt[i]) →
    ∃ t1 t2 t3, exec (.crcRun n a) s1 = .next t1 ∧ exec (.crcRun n b) s2 = .next t2 ∧
      exec (.crcRun n (a ^^^ b)) s3 = .next t3 ∧ t3.calcCrc = t1.calcCrc ^^^ t2.calcCrc ∧
      (a = 0#24 → (∀ i (h : i < 68), s1.pkt[i] = 0#8) → t1.calcCrc = 0#24)

/-- For every n up to 68, every seed and every bit of PKT[0 .. n-1]: if two states' PKT differ in exactly that bit,
CRC.RUN leaves different calcs. [48_crc24.md (R207 (b))] -/
def Obligations.CrcCatchesEverySingleBitFlip : Prop :=
  ∀ (s s' : State) (n k : Nat) (c : Nat) (seed : BitVec 24), n ≤ 68 → k < n → c < 8 →
    (∀ i (h : i < 68), s'.pkt[i] = if i = k then s.pkt[i] ^^^ (1#8 <<< c) else s.pkt[i]) →
    ∃ t t', exec (.crcRun n seed) s = .next t ∧ exec (.crcRun n seed) s' = .next t' ∧ t.calcCrc ≠ t'.calcCrc

/-- From every state CRC.RXASM leaves rx equal to PKT[len+2] times 65536 plus PKT[len+3] times 256 plus PKT[len+4];
every other field of the block is unchanged. [R204] -/
def Obligations.ReceivedCrcIsBigEndian : Prop :=
  ∀ s : State, ∃ t, exec .crcRxasm s = .next t ∧
    t.rxCrc.toNat = (s.pkt.toList.getD (s.len.toNat + 2) 0#8).toNat * 65536 +
      (s.pkt.toList.getD (s.len.toNat + 3) 0#8).toNat * 256 + (s.pkt.toList.getD (s.len.toNat + 4) 0#8).toNat ∧
    t = { s with rxCrc := t.rxCrc, result := t.result }

/-- From every state FE.ADDR hands back six bytes, byte k being PKT[7 - k] with its bits reversed, for k from 0 to 5;
no field of the block changes. [R221] -/
def Obligations.DeviceAddressBytes : Prop :=
  ∀ s : State, ∃ t m, exec .feAddr s = .next t ∧ t.result = .address m ∧ t = { s with result := t.result } ∧
    ∀ i < 8, m.b0.getLsbD i = s.pkt[7].getLsbD (7 - i) ∧ m.b1.getLsbD i = s.pkt[6].getLsbD (7 - i) ∧
      m.b2.getLsbD i = s.pkt[5].getLsbD (7 - i) ∧ m.b3.getLsbD i = s.pkt[4].getLsbD (7 - i) ∧
      m.b4.getLsbD i = s.pkt[3].getLsbD (7 - i) ∧ m.b5.getLsbD i = s.pkt[2].getLsbD (7 - i)

/-- From every state with calc equal to rx FE.EMIT mac appends to OUTQ exactly the start marker, mac[0] to mac[5] as
data and the end marker, as 9-bit words with bit 8 set for data; with calc not equal to rx it appends nothing.
Either way the old entries stay in front and every other field of the block is unchanged. The gate is R206's; that
it holds of FE.EMIT run alone is the model's reading (log 18). [49_field_emitter.md (R223), 48_crc24.md (R206),
30_encoding.md section 1 (R79, R80)] -/
def Obligations.RecordIsEightEntries : Prop :=
  ∀ (s : State) (m : Mac), ∃ t q, exec (.feEmit m) s = .next t ∧ t.outq = s.outq ++ q ∧
    (s.calcCrc = s.rxCrc → q.map taggedWord = [0#1 ++ s.params.markStart, 1#1 ++ m.b0, 1#1 ++ m.b1, 1#1 ++ m.b2,
      1#1 ++ m.b3, 1#1 ++ m.b4, 1#1 ++ m.b5, 0#1 ++ s.params.markEnd]) ∧
    (s.calcCrc ≠ s.rxCrc → q = []) ∧
    t = { s with outq := t.outq, result := t.result }

/-- From every state CD.ARM leaves cd 20 and every other field of the block unchanged. [R225] -/
def Obligations.ArmLoadsTwenty : Prop :=
  ∀ s : State, ∃ t, exec .cdArm s = .next t ∧ t.cd.toNat = 20 ∧ t = { s with cd := t.cd, result := t.result }

/-- For a count n above the capacity (68 for PKT, 2 for hdr): FX.SPAN fills every entry of PKT; DW.RUN dewhitens every
entry of its buffer, leaves the other buffer, and leaves lfsr after 8 n steps from the seed; CRC.RUN takes every
entry of PKT and then one free byte for each of the n - 68 entries that do not exist; every other field of the
block is unchanged. The spec states no result there; this is the model's own (log 11), and the statement holds for
every value of the free bytes. [44_field_extractor.md (R153), 46_dewhitener.md (R173, R174), 48_crc24.md (R203),
00_scope.md section 4 (R9)] -/
def Obligations.CountsBeyondTheBufferRun : Prop :=
  ∀ (s : State) (n : Nat),
    (68 < n → ∃ t, exec (.fxSpan n) s = .next t ∧
      (∀ i < 68, ∀ c < 8, (t.pkt.toList.getD i 0#8).getLsbD (7 - c) = slicedBit s (40 + 8 * i + c)) ∧
      t = { s with pkt := t.pkt, result := t.result }) ∧
    (∀ (data : Buffer) (ch : Byte), data.cap < n → ∃ t, exec (.dwRun data n ch) s = .next t ∧
      (∀ k < data.cap, ∀ c < 8, ((bufferBytes t data).getD k 0#8).getLsbD (7 - c) =
        (((bufferBytes s data).getD k 0#8).getLsbD (7 - c) ^^ keystreamBit ch (8 * k + c))) ∧
      (∀ other, other ≠ data → bufferBytes t other = bufferBytes s other) ∧
      t.lfsr = whiteningState ch (8 * n) ∧
      t = { s with hdr := t.hdr, pkt := t.pkt, lfsr := t.lfsr, result := t.result }) ∧
    (∀ seed : BitVec 24, 68 < n → ∃ t, exec (.crcRun n seed) s = .next t ∧
      t.calcCrc = crcOnAir seed
        (s.pkt.toList ++ (List.range (n - 68)).map fun i => Config.freeBits 8 (s.freeIdx + i)) ∧
      t.crc = t.calcCrc ∧ t.result = .word24 t.calcCrc ∧
      t = { s with crc := t.crc, calcCrc := t.calcCrc, result := t.result, freeIdx := t.freeIdx })

/-- For every step that goes on, unit operations run alone among them, unless the step's word is RESET: if OUTQ
changed, then it grew by exactly one record of 8 entries and calc equals rx in the state after; so with calc not
equal to rx nothing is emitted. The gate is R206's, the record of 8 entries R223's and R80's; that the gate holds
of FE.EMIT run alone is the model's reading (log 18). [48_crc24.md (R206), 49_field_emitter.md (R223),
30_encoding.md section 1 (R80)] -/
def Obligations.RecordNeedsAMatchingCrc : Prop :=
  ∀ s t : State, step s = .next t → ¬ s.NextIsReset → t.outq ≠ s.outq →
    t.calcCrc = t.rxCrc ∧ ∃ m : Mac, t.outq = s.outq ++ record s.params m ∧ (record s.params m).length = 8
end

