-- ==== Sys2Proof/Laws/Memory.lean ====
section
/-! SUPPORT. The ring's laws: read after write, and that every write keeps the canonical form. -/

namespace Sys2Proof.Machine

@[simp] theorem Memory.read_nil (p : Params) (slot : Nat) : Memory.read p [] slot = ringInit p slot := rfl

theorem Memory.read_cons (p : Params) (b : Nat) (v : Sample) (m : Memory) (slot : Nat) :
    Memory.read p ((b, v) :: m) slot = if slot = b then v else Memory.read p m slot := rfl

theorem Memory.read_insert (p : Params) (m : Memory) (slot i : Nat) (v : Sample) :
    Memory.read p (Memory.insert slot v m) i = if i = slot then v else Memory.read p m i := by
  induction m with
  | nil => rfl
  | cons e m ih =>
    obtain ⟨b, w⟩ := e
    unfold Memory.insert
    split_ifs with h1 h2 <;> simp only [Memory.read_cons, ih] <;> grind

theorem Memory.read_erase (p : Params) (m : Memory) (slot i : Nat) :
    Memory.read p (Memory.erase slot m) i = if i = slot then ringInit p slot else Memory.read p m i := by
  induction m with
  | nil => simp [Memory.erase]; grind
  | cons e m ih =>
    obtain ⟨b, w⟩ := e
    by_cases hb : b = slot
    · have : Memory.erase slot ((b, w) :: m) = Memory.erase slot m := by simp [Memory.erase, hb]
      rw [this, ih, Memory.read_cons]; grind
    · have : Memory.erase slot ((b, w) :: m) = (b, w) :: Memory.erase slot m := by simp [Memory.erase, hb]
      rw [this, Memory.read_cons, Memory.read_cons, ih]; grind

/-- What a write does to every slot: the slot written reads as the sample, every other one as before. -/
theorem Memory.read_write (p : Params) (m : Memory) (slot i : Nat) (v : Sample) :
    Memory.read p (Memory.write p m slot v) i = if i = slot then v else Memory.read p m i := by
  unfold Memory.write
  split_ifs with h1 h2 h2
  · rw [Memory.read_erase, if_pos h2, h1]
  · rw [Memory.read_erase, if_neg h2]
  · rw [Memory.read_insert, if_pos h2]
  · rw [Memory.read_insert, if_neg h2]

@[simp] theorem Memory.read_write_same (p : Params) (m : Memory) (slot : Nat) (v : Sample) :
    Memory.read p (Memory.write p m slot v) slot = v := by simp [Memory.read_write]

theorem Memory.read_write_other (p : Params) (m : Memory) {slot i : Nat} (v : Sample) (h : i ≠ slot) :
    Memory.read p (Memory.write p m slot v) i = Memory.read p m i := by simp [Memory.read_write, h]

/-- The canonical form, spelled out. -/
theorem Memory.wf_iff (p : Params) (m : Memory) :
    Memory.wf p m = true ↔
      m.Pairwise (fun e f => e.1 < f.1) ∧ ∀ e ∈ m, e.1 < p.rbSize ∧ e.2 ≠ ringInit p e.1 := by
  simp [Memory.wf]

/-- Nothing listed, as after reset, is canonical. -/
@[simp] theorem Memory.wf_nil (p : Params) : Memory.wf p [] = true := rfl

theorem Memory.mem_insert {slot : Nat} {v : Sample} {m : Memory} {e : Nat × Sample}
    (h : e ∈ Memory.insert slot v m) : e = (slot, v) ∨ e ∈ m := by
  induction m with
  | nil => simpa [Memory.insert] using h
  | cons f m ih =>
    obtain ⟨b, w⟩ := f
    unfold Memory.insert at h
    split_ifs at h <;> simp only [List.mem_cons] at h ⊢ <;> grind

theorem Memory.pairwise_insert {m : Memory} (slot : Nat) (v : Sample)
    (h : m.Pairwise (fun e f => e.1 < f.1)) :
    (Memory.insert slot v m).Pairwise (fun e f => e.1 < f.1) := by
  induction m with
  | nil => simp [Memory.insert]
  | cons f m ih =>
    obtain ⟨b, w⟩ := f
    rw [List.pairwise_cons] at h
    obtain ⟨hb, hm⟩ := h
    unfold Memory.insert
    split_ifs with h1 h2
    · refine List.pairwise_cons.2 ⟨?_, List.pairwise_cons.2 ⟨hb, hm⟩⟩
      intro e he
      rcases List.mem_cons.1 he with rfl | he
      · exact h1
      · exact lt_trans h1 (hb e he)
    · exact List.pairwise_cons.2 ⟨fun e he => h2 ▸ hb e he, hm⟩
    · refine List.pairwise_cons.2 ⟨?_, ih hm⟩
      intro e he
      rcases Memory.mem_insert he with rfl | he
      · show b < slot
        omega
      · exact hb e he

/-- Every write to a slot below N keeps the canonical form. -/
theorem Memory.wf_write {p : Params} {m : Memory} {slot : Nat} (v : Sample)
    (h : Memory.wf p m = true) (hs : slot < p.rbSize) : Memory.wf p (Memory.write p m slot v) = true := by
  rw [Memory.wf_iff] at h ⊢
  obtain ⟨hp, hm⟩ := h
  unfold Memory.write
  split_ifs with hv
  · exact ⟨hp.filter _, fun e he => hm e (List.mem_of_mem_filter he)⟩
  · refine ⟨Memory.pairwise_insert slot v hp, fun e he => ?_⟩
    rcases Memory.mem_insert he with rfl | he
    · exact ⟨hs, hv⟩
    · exact hm e he

/-- `x mod N` of a non-negative number. -/
@[simp] theorem slotOf_natCast (p : Params) (n : Nat) : slotOf p (n : Int) = n % p.rbSize := by
  unfold slotOf
  omega

@[simp] theorem slotOf_natCast_add (p : Params) (a b : Nat) : slotOf p ((a : Int) + b) = (a + b) % p.rbSize := by
  rw [← Int.natCast_add, slotOf_natCast]

@[simp] theorem slotOf_natCast_succ (p : Params) (a : Nat) : slotOf p ((a : Int) + 1) = (a + 1) % p.rbSize := by
  exact slotOf_natCast_add p a 1

/-- A slot number is below N. -/
theorem slotOf_lt {p : Params} (h : 0 < p.rbSize) (addr : Int) : slotOf p addr < p.rbSize := by
  unfold slotOf
  have := Int.emod_nonneg addr (b := (p.rbSize : Int)) (by omega)
  have := Int.emod_lt_of_pos addr (b := (p.rbSize : Int)) (by omega)
  omega

end Sys2Proof.Machine
end

