-- ==== Sys2Proof/Laws/State.lean ====
section
/-! SUPPORT. One lemma per field for each of the sequencer's state updates: what it writes and what it leaves. -/

namespace Sys2Proof.Machine

/-! ### pushSample -/

@[simp] theorem pushSample_params (v : Sample) (s : State) : (pushSample v s).params = s.params := rfl
@[simp] theorem pushSample_port (v : Sample) (s : State) : (pushSample v s).port = s.port := rfl
@[simp] theorem pushSample_configured (v : Sample) (s : State) : (pushSample v s).configured = s.configured := rfl
@[simp] theorem pushSample_wp (v : Sample) (s : State) : (pushSample v s).wp = slotOf s.params ((s.wp : Int) + 1) :=
  rfl
@[simp] theorem pushSample_cd (v : Sample) (s : State) : (pushSample v s).cd = s.cd := rfl
@[simp] theorem pushSample_thr (v : Sample) (s : State) : (pushSample v s).thr = s.thr := rfl
@[simp] theorem pushSample_outq (v : Sample) (s : State) : (pushSample v s).outq = s.outq := rfl
@[simp] theorem pushSample_lfsr (v : Sample) (s : State) : (pushSample v s).lfsr = s.lfsr := rfl
@[simp] theorem pushSample_crc (v : Sample) (s : State) : (pushSample v s).crc = s.crc := rfl
@[simp] theorem pushSample_aa (v : Sample) (s : State) : (pushSample v s).aa = s.aa := rfl
@[simp] theorem pushSample_hdr (v : Sample) (s : State) : (pushSample v s).hdr = s.hdr := rfl
@[simp] theorem pushSample_len (v : Sample) (s : State) : (pushSample v s).len = s.len := rfl
@[simp] theorem pushSample_trans (v : Sample) (s : State) : (pushSample v s).trans = s.trans := rfl
@[simp] theorem pushSample_calcCrc (v : Sample) (s : State) : (pushSample v s).calcCrc = s.calcCrc := rfl
@[simp] theorem pushSample_rxCrc (v : Sample) (s : State) : (pushSample v s).rxCrc = s.rxCrc := rfl
@[simp] theorem pushSample_pkt (v : Sample) (s : State) : (pushSample v s).pkt = s.pkt := rfl
@[simp] theorem pushSample_result (v : Sample) (s : State) : (pushSample v s).result = s.result := rfl
@[simp] theorem pushSample_freeIdx (v : Sample) (s : State) : (pushSample v s).freeIdx = s.freeIdx := rfl

/-! ### tickCooldown -/

@[simp] theorem tickCooldown_params (s : State) : (tickCooldown s).params = s.params := rfl
@[simp] theorem tickCooldown_port (s : State) : (tickCooldown s).port = s.port := rfl
@[simp] theorem tickCooldown_configured (s : State) : (tickCooldown s).configured = s.configured := rfl
@[simp] theorem tickCooldown_wp (s : State) : (tickCooldown s).wp = s.wp := rfl
@[simp] theorem tickCooldown_cd (s : State) : (tickCooldown s).cd = if s.cd == 0#5 then s.cd else s.cd - 1#5 := rfl
@[simp] theorem tickCooldown_thr (s : State) : (tickCooldown s).thr = s.thr := rfl
@[simp] theorem tickCooldown_ring (s : State) : (tickCooldown s).ring = s.ring := rfl
@[simp] theorem tickCooldown_outq (s : State) : (tickCooldown s).outq = s.outq := rfl
@[simp] theorem tickCooldown_lfsr (s : State) : (tickCooldown s).lfsr = s.lfsr := rfl
@[simp] theorem tickCooldown_crc (s : State) : (tickCooldown s).crc = s.crc := rfl
@[simp] theorem tickCooldown_aa (s : State) : (tickCooldown s).aa = s.aa := rfl
@[simp] theorem tickCooldown_hdr (s : State) : (tickCooldown s).hdr = s.hdr := rfl
@[simp] theorem tickCooldown_len (s : State) : (tickCooldown s).len = s.len := rfl
@[simp] theorem tickCooldown_trans (s : State) : (tickCooldown s).trans = s.trans := rfl
@[simp] theorem tickCooldown_calcCrc (s : State) : (tickCooldown s).calcCrc = s.calcCrc := rfl
@[simp] theorem tickCooldown_rxCrc (s : State) : (tickCooldown s).rxCrc = s.rxCrc := rfl
@[simp] theorem tickCooldown_pkt (s : State) : (tickCooldown s).pkt = s.pkt := rfl
@[simp] theorem tickCooldown_result (s : State) : (tickCooldown s).result = s.result := rfl
@[simp] theorem tickCooldown_freeIdx (s : State) : (tickCooldown s).freeIdx = s.freeIdx := rfl

/-! ### setThreshold -/

@[simp] theorem setThreshold_params (s : State) : (setThreshold s).params = s.params := rfl
@[simp] theorem setThreshold_port (s : State) : (setThreshold s).port = s.port := rfl
@[simp] theorem setThreshold_configured (s : State) : (setThreshold s).configured = s.configured := rfl
@[simp] theorem setThreshold_wp (s : State) : (setThreshold s).wp = s.wp := rfl
@[simp] theorem setThreshold_cd (s : State) : (setThreshold s).cd = s.cd := rfl
@[simp] theorem setThreshold_thr (s : State) : (setThreshold s).thr = BitVec.ofInt 16 (thresholdSum s / 8) := rfl
@[simp] theorem setThreshold_ring (s : State) : (setThreshold s).ring = s.ring := rfl
@[simp] theorem setThreshold_outq (s : State) : (setThreshold s).outq = s.outq := rfl
@[simp] theorem setThreshold_lfsr (s : State) : (setThreshold s).lfsr = s.lfsr := rfl
@[simp] theorem setThreshold_crc (s : State) : (setThreshold s).crc = s.crc := rfl
@[simp] theorem setThreshold_aa (s : State) : (setThreshold s).aa = s.aa := rfl
@[simp] theorem setThreshold_hdr (s : State) : (setThreshold s).hdr = s.hdr := rfl
@[simp] theorem setThreshold_len (s : State) : (setThreshold s).len = s.len := rfl
@[simp] theorem setThreshold_trans (s : State) : (setThreshold s).trans = s.trans := rfl
@[simp] theorem setThreshold_calcCrc (s : State) : (setThreshold s).calcCrc = s.calcCrc := rfl
@[simp] theorem setThreshold_rxCrc (s : State) : (setThreshold s).rxCrc = s.rxCrc := rfl
@[simp] theorem setThreshold_pkt (s : State) : (setThreshold s).pkt = s.pkt := rfl
@[simp] theorem setThreshold_result (s : State) : (setThreshold s).result = s.result := rfl
@[simp] theorem setThreshold_freeIdx (s : State) : (setThreshold s).freeIdx = s.freeIdx := rfl

/-! ### countTransitions -/

@[simp] theorem countTransitions_params (s : State) : (countTransitions s).params = s.params := rfl
@[simp] theorem countTransitions_port (s : State) : (countTransitions s).port = s.port := rfl
@[simp] theorem countTransitions_configured (s : State) : (countTransitions s).configured = s.configured := rfl
@[simp] theorem countTransitions_wp (s : State) : (countTransitions s).wp = s.wp := rfl
@[simp] theorem countTransitions_cd (s : State) : (countTransitions s).cd = s.cd := rfl
@[simp] theorem countTransitions_thr (s : State) : (countTransitions s).thr = s.thr := rfl
@[simp] theorem countTransitions_ring (s : State) : (countTransitions s).ring = s.ring := rfl
@[simp] theorem countTransitions_outq (s : State) : (countTransitions s).outq = s.outq := rfl
@[simp] theorem countTransitions_lfsr (s : State) : (countTransitions s).lfsr = s.lfsr := rfl
@[simp] theorem countTransitions_crc (s : State) : (countTransitions s).crc = s.crc := rfl
@[simp] theorem countTransitions_aa (s : State) : (countTransitions s).aa = s.aa := rfl
@[simp] theorem countTransitions_hdr (s : State) : (countTransitions s).hdr = s.hdr := rfl
@[simp] theorem countTransitions_len (s : State) : (countTransitions s).len = s.len := rfl
@[simp] theorem countTransitions_trans (s : State) : (countTransitions s).trans = transitions s := rfl
@[simp] theorem countTransitions_calcCrc (s : State) : (countTransitions s).calcCrc = s.calcCrc := rfl
@[simp] theorem countTransitions_rxCrc (s : State) : (countTransitions s).rxCrc = s.rxCrc := rfl
@[simp] theorem countTransitions_pkt (s : State) : (countTransitions s).pkt = s.pkt := rfl
@[simp] theorem countTransitions_result (s : State) : (countTransitions s).result = s.result := rfl
@[simp] theorem countTransitions_freeIdx (s : State) : (countTransitions s).freeIdx = s.freeIdx := rfl

/-! ### extractHeader -/

@[simp] theorem extractHeader_params (s : State) : (extractHeader s).params = s.params := by simp only [extractHeader]
@[simp] theorem extractHeader_port (s : State) : (extractHeader s).port = s.port := by simp only [extractHeader]
@[simp] theorem extractHeader_configured (s : State) : (extractHeader s).configured = s.configured :=
  by simp only [extractHeader]
@[simp] theorem extractHeader_wp (s : State) : (extractHeader s).wp = s.wp := by simp only [extractHeader]
@[simp] theorem extractHeader_cd (s : State) : (extractHeader s).cd = s.cd := by simp only [extractHeader]
@[simp] theorem extractHeader_thr (s : State) : (extractHeader s).thr = s.thr := by simp only [extractHeader]
@[simp] theorem extractHeader_ring (s : State) : (extractHeader s).ring = s.ring := by simp only [extractHeader]
@[simp] theorem extractHeader_outq (s : State) : (extractHeader s).outq = s.outq := by simp only [extractHeader]
@[simp] theorem extractHeader_lfsr (s : State) : (extractHeader s).lfsr = s.lfsr := by simp only [extractHeader]
@[simp] theorem extractHeader_crc (s : State) : (extractHeader s).crc = s.crc := by simp only [extractHeader]
@[simp] theorem extractHeader_aa (s : State) : (extractHeader s).aa = s.aa := by simp only [extractHeader]
@[simp] theorem extractHeader_hdr (s : State) : (extractHeader s).hdr = #v[rawByte s offHdr, rawByte s (offHdr + 8)] :=
  by simp only [extractHeader]
@[simp] theorem extractHeader_len (s : State) : (extractHeader s).len = s.len := by simp only [extractHeader]
@[simp] theorem extractHeader_trans (s : State) : (extractHeader s).trans = s.trans := by simp only [extractHeader]
@[simp] theorem extractHeader_calcCrc (s : State) : (extractHeader s).calcCrc = s.calcCrc :=
  by simp only [extractHeader]
@[simp] theorem extractHeader_rxCrc (s : State) : (extractHeader s).rxCrc = s.rxCrc := by simp only [extractHeader]
@[simp] theorem extractHeader_pkt (s : State) : (extractHeader s).pkt = s.pkt := by simp only [extractHeader]
@[simp] theorem extractHeader_result (s : State) : (extractHeader s).result = s.result := by simp only [extractHeader]
@[simp] theorem extractHeader_freeIdx (s : State) : (extractHeader s).freeIdx = s.freeIdx :=
  by simp only [extractHeader]

/-! ### extractSpan -/

@[simp] theorem extractSpan_params (n : Nat) (s : State) : (extractSpan n s).params = s.params :=
  by simp only [extractSpan]
@[simp] theorem extractSpan_port (n : Nat) (s : State) : (extractSpan n s).port = s.port := by simp only [extractSpan]
@[simp] theorem extractSpan_configured (n : Nat) (s : State) : (extractSpan n s).configured = s.configured :=
  by simp only [extractSpan]
@[simp] theorem extractSpan_wp (n : Nat) (s : State) : (extractSpan n s).wp = s.wp := by simp only [extractSpan]
@[simp] theorem extractSpan_cd (n : Nat) (s : State) : (extractSpan n s).cd = s.cd := by simp only [extractSpan]
@[simp] theorem extractSpan_thr (n : Nat) (s : State) : (extractSpan n s).thr = s.thr := by simp only [extractSpan]
@[simp] theorem extractSpan_ring (n : Nat) (s : State) : (extractSpan n s).ring = s.ring := by simp only [extractSpan]
@[simp] theorem extractSpan_outq (n : Nat) (s : State) : (extractSpan n s).outq = s.outq := by simp only [extractSpan]
@[simp] theorem extractSpan_lfsr (n : Nat) (s : State) : (extractSpan n s).lfsr = s.lfsr := by simp only [extractSpan]
@[simp] theorem extractSpan_crc (n : Nat) (s : State) : (extractSpan n s).crc = s.crc := by simp only [extractSpan]
@[simp] theorem extractSpan_aa (n : Nat) (s : State) : (extractSpan n s).aa = s.aa := by simp only [extractSpan]
@[simp] theorem extractSpan_hdr (n : Nat) (s : State) : (extractSpan n s).hdr = s.hdr := by simp only [extractSpan]
@[simp] theorem extractSpan_len (n : Nat) (s : State) : (extractSpan n s).len = s.len := by simp only [extractSpan]
@[simp] theorem extractSpan_trans (n : Nat) (s : State) : (extractSpan n s).trans = s.trans :=
  by simp only [extractSpan]
@[simp] theorem extractSpan_calcCrc (n : Nat) (s : State) : (extractSpan n s).calcCrc = s.calcCrc :=
  by simp only [extractSpan]
@[simp] theorem extractSpan_rxCrc (n : Nat) (s : State) : (extractSpan n s).rxCrc = s.rxCrc :=
  by simp only [extractSpan]
@[simp] theorem extractSpan_result (n : Nat) (s : State) : (extractSpan n s).result = s.result :=
  by simp only [extractSpan]
@[simp] theorem extractSpan_freeIdx (n : Nat) (s : State) : (extractSpan n s).freeIdx = s.freeIdx :=
  by simp only [extractSpan]

/-! ### runWhitening -/

@[simp] theorem runWhitening_params (data : Buffer) (n : Nat) (ch : Byte) (s : State) : (runWhitening data n ch s).params = s.params :=
  by cases data <;> rfl
@[simp] theorem runWhitening_port (data : Buffer) (n : Nat) (ch : Byte) (s : State) : (runWhitening data n ch s).port = s.port :=
  by cases data <;> rfl
@[simp] theorem runWhitening_configured (data : Buffer) (n : Nat) (ch : Byte) (s : State) : (runWhitening data n ch s).configured = s.configured :=
  by cases data <;> rfl
@[simp] theorem runWhitening_wp (data : Buffer) (n : Nat) (ch : Byte) (s : State) : (runWhitening data n ch s).wp = s.wp :=
  by cases data <;> rfl
@[simp] theorem runWhitening_cd (data : Buffer) (n : Nat) (ch : Byte) (s : State) : (runWhitening data n ch s).cd = s.cd :=
  by cases data <;> rfl
@[simp] theorem runWhitening_thr (data : Buffer) (n : Nat) (ch : Byte) (s : State) : (runWhitening data n ch s).thr = s.thr :=
  by cases data <;> rfl
@[simp] theorem runWhitening_ring (data : Buffer) (n : Nat) (ch : Byte) (s : State) : (runWhitening data n ch s).ring = s.ring :=
  by cases data <;> rfl
@[simp] theorem runWhitening_outq (data : Buffer) (n : Nat) (ch : Byte) (s : State) : (runWhitening data n ch s).outq = s.outq :=
  by cases data <;> rfl
@[simp] theorem runWhitening_crc (data : Buffer) (n : Nat) (ch : Byte) (s : State) : (runWhitening data n ch s).crc = s.crc :=
  by cases data <;> rfl
@[simp] theorem runWhitening_aa (data : Buffer) (n : Nat) (ch : Byte) (s : State) : (runWhitening data n ch s).aa = s.aa :=
  by cases data <;> rfl
@[simp] theorem runWhitening_len (data : Buffer) (n : Nat) (ch : Byte) (s : State) : (runWhitening data n ch s).len = s.len :=
  by cases data <;> rfl
@[simp] theorem runWhitening_trans (data : Buffer) (n : Nat) (ch : Byte) (s : State) : (runWhitening data n ch s).trans = s.trans :=
  by cases data <;> rfl
@[simp] theorem runWhitening_calcCrc (data : Buffer) (n : Nat) (ch : Byte) (s : State) : (runWhitening data n ch s).calcCrc = s.calcCrc :=
  by cases data <;> rfl
@[simp] theorem runWhitening_rxCrc (data : Buffer) (n : Nat) (ch : Byte) (s : State) : (runWhitening data n ch s).rxCrc = s.rxCrc :=
  by cases data <;> rfl
@[simp] theorem runWhitening_result (data : Buffer) (n : Nat) (ch : Byte) (s : State) : (runWhitening data n ch s).result = s.result :=
  by cases data <;> rfl
@[simp] theorem runWhitening_freeIdx (data : Buffer) (n : Nat) (ch : Byte) (s : State) : (runWhitening data n ch s).freeIdx = s.freeIdx :=
  by cases data <;> rfl

/-! ### assembleAddress -/

@[simp] theorem assembleAddress_params (s : State) : (assembleAddress s).params = s.params := rfl
@[simp] theorem assembleAddress_port (s : State) : (assembleAddress s).port = s.port := rfl
@[simp] theorem assembleAddress_configured (s : State) : (assembleAddress s).configured = s.configured := rfl
@[simp] theorem assembleAddress_wp (s : State) : (assembleAddress s).wp = s.wp := rfl
@[simp] theorem assembleAddress_cd (s : State) : (assembleAddress s).cd = s.cd := rfl
@[simp] theorem assembleAddress_thr (s : State) : (assembleAddress s).thr = s.thr := rfl
@[simp] theorem assembleAddress_ring (s : State) : (assembleAddress s).ring = s.ring := rfl
@[simp] theorem assembleAddress_outq (s : State) : (assembleAddress s).outq = s.outq := rfl
@[simp] theorem assembleAddress_lfsr (s : State) : (assembleAddress s).lfsr = s.lfsr := rfl
@[simp] theorem assembleAddress_crc (s : State) : (assembleAddress s).crc = s.crc := rfl
@[simp] theorem assembleAddress_aa (s : State) : (assembleAddress s).aa = accessAddress s := rfl
@[simp] theorem assembleAddress_hdr (s : State) : (assembleAddress s).hdr = s.hdr := rfl
@[simp] theorem assembleAddress_len (s : State) : (assembleAddress s).len = s.len := rfl
@[simp] theorem assembleAddress_trans (s : State) : (assembleAddress s).trans = s.trans := rfl
@[simp] theorem assembleAddress_calcCrc (s : State) : (assembleAddress s).calcCrc = s.calcCrc := rfl
@[simp] theorem assembleAddress_rxCrc (s : State) : (assembleAddress s).rxCrc = s.rxCrc := rfl
@[simp] theorem assembleAddress_pkt (s : State) : (assembleAddress s).pkt = s.pkt := rfl
@[simp] theorem assembleAddress_result (s : State) : (assembleAddress s).result = s.result := rfl
@[simp] theorem assembleAddress_freeIdx (s : State) : (assembleAddress s).freeIdx = s.freeIdx := rfl

/-! ### decodeLength -/

@[simp] theorem decodeLength_params (s : State) : (decodeLength s).params = s.params := rfl
@[simp] theorem decodeLength_port (s : State) : (decodeLength s).port = s.port := rfl
@[simp] theorem decodeLength_configured (s : State) : (decodeLength s).configured = s.configured := rfl
@[simp] theorem decodeLength_wp (s : State) : (decodeLength s).wp = s.wp := rfl
@[simp] theorem decodeLength_cd (s : State) : (decodeLength s).cd = s.cd := rfl
@[simp] theorem decodeLength_thr (s : State) : (decodeLength s).thr = s.thr := rfl
@[simp] theorem decodeLength_ring (s : State) : (decodeLength s).ring = s.ring := rfl
@[simp] theorem decodeLength_outq (s : State) : (decodeLength s).outq = s.outq := rfl
@[simp] theorem decodeLength_lfsr (s : State) : (decodeLength s).lfsr = s.lfsr := rfl
@[simp] theorem decodeLength_crc (s : State) : (decodeLength s).crc = s.crc := rfl
@[simp] theorem decodeLength_aa (s : State) : (decodeLength s).aa = s.aa := rfl
@[simp] theorem decodeLength_hdr (s : State) : (decodeLength s).hdr = s.hdr := rfl
@[simp] theorem decodeLength_len (s : State) : (decodeLength s).len = lengthField s.hdr[1] := rfl
@[simp] theorem decodeLength_trans (s : State) : (decodeLength s).trans = s.trans := rfl
@[simp] theorem decodeLength_calcCrc (s : State) : (decodeLength s).calcCrc = s.calcCrc := rfl
@[simp] theorem decodeLength_rxCrc (s : State) : (decodeLength s).rxCrc = s.rxCrc := rfl
@[simp] theorem decodeLength_pkt (s : State) : (decodeLength s).pkt = s.pkt := rfl
@[simp] theorem decodeLength_result (s : State) : (decodeLength s).result = s.result := rfl
@[simp] theorem decodeLength_freeIdx (s : State) : (decodeLength s).freeIdx = s.freeIdx := rfl

/-! ### runCrc -/

@[simp] theorem runCrc_params (n : Nat) (seed : BitVec 24) (s : State) : (runCrc n seed s).params = s.params :=
  by simp only [runCrc]
@[simp] theorem runCrc_port (n : Nat) (seed : BitVec 24) (s : State) : (runCrc n seed s).port = s.port :=
  by simp only [runCrc]
@[simp] theorem runCrc_configured (n : Nat) (seed : BitVec 24) (s : State) : (runCrc n seed s).configured = s.configured :=
  by simp only [runCrc]
@[simp] theorem runCrc_wp (n : Nat) (seed : BitVec 24) (s : State) : (runCrc n seed s).wp = s.wp :=
  by simp only [runCrc]
@[simp] theorem runCrc_cd (n : Nat) (seed : BitVec 24) (s : State) : (runCrc n seed s).cd = s.cd :=
  by simp only [runCrc]
@[simp] theorem runCrc_thr (n : Nat) (seed : BitVec 24) (s : State) : (runCrc n seed s).thr = s.thr :=
  by simp only [runCrc]
@[simp] theorem runCrc_ring (n : Nat) (seed : BitVec 24) (s : State) : (runCrc n seed s).ring = s.ring :=
  by simp only [runCrc]
@[simp] theorem runCrc_outq (n : Nat) (seed : BitVec 24) (s : State) : (runCrc n seed s).outq = s.outq :=
  by simp only [runCrc]
@[simp] theorem runCrc_lfsr (n : Nat) (seed : BitVec 24) (s : State) : (runCrc n seed s).lfsr = s.lfsr :=
  by simp only [runCrc]
@[simp] theorem runCrc_crc (n : Nat) (seed : BitVec 24) (s : State) : (runCrc n seed s).crc = crcBytes seed (pktBytes n s) :=
  by simp only [runCrc]
@[simp] theorem runCrc_aa (n : Nat) (seed : BitVec 24) (s : State) : (runCrc n seed s).aa = s.aa :=
  by simp only [runCrc]
@[simp] theorem runCrc_hdr (n : Nat) (seed : BitVec 24) (s : State) : (runCrc n seed s).hdr = s.hdr :=
  by simp only [runCrc]
@[simp] theorem runCrc_len (n : Nat) (seed : BitVec 24) (s : State) : (runCrc n seed s).len = s.len :=
  by simp only [runCrc]
@[simp] theorem runCrc_trans (n : Nat) (seed : BitVec 24) (s : State) : (runCrc n seed s).trans = s.trans :=
  by simp only [runCrc]
@[simp] theorem runCrc_calcCrc (n : Nat) (seed : BitVec 24) (s : State) :
    (runCrc n seed s).calcCrc = crcBytes seed (pktBytes n s) := by simp only [runCrc]
@[simp] theorem runCrc_rxCrc (n : Nat) (seed : BitVec 24) (s : State) : (runCrc n seed s).rxCrc = s.rxCrc :=
  by simp only [runCrc]
@[simp] theorem runCrc_pkt (n : Nat) (seed : BitVec 24) (s : State) : (runCrc n seed s).pkt = s.pkt :=
  by simp only [runCrc]
@[simp] theorem runCrc_result (n : Nat) (seed : BitVec 24) (s : State) : (runCrc n seed s).result = s.result :=
  by simp only [runCrc]
@[simp] theorem runCrc_freeIdx (n : Nat) (seed : BitVec 24) (s : State) : (runCrc n seed s).freeIdx = s.freeIdx + (n - pktCap) :=
  by simp only [runCrc]

/-! ### assembleRx -/

@[simp] theorem assembleRx_params (s : State) : (assembleRx s).params = s.params := by simp only [assembleRx]
@[simp] theorem assembleRx_port (s : State) : (assembleRx s).port = s.port := by simp only [assembleRx]
@[simp] theorem assembleRx_configured (s : State) : (assembleRx s).configured = s.configured :=
  by simp only [assembleRx]
@[simp] theorem assembleRx_wp (s : State) : (assembleRx s).wp = s.wp := by simp only [assembleRx]
@[simp] theorem assembleRx_cd (s : State) : (assembleRx s).cd = s.cd := by simp only [assembleRx]
@[simp] theorem assembleRx_thr (s : State) : (assembleRx s).thr = s.thr := by simp only [assembleRx]
@[simp] theorem assembleRx_ring (s : State) : (assembleRx s).ring = s.ring := by simp only [assembleRx]
@[simp] theorem assembleRx_outq (s : State) : (assembleRx s).outq = s.outq := by simp only [assembleRx]
@[simp] theorem assembleRx_lfsr (s : State) : (assembleRx s).lfsr = s.lfsr := by simp only [assembleRx]
@[simp] theorem assembleRx_crc (s : State) : (assembleRx s).crc = s.crc := by simp only [assembleRx]
@[simp] theorem assembleRx_aa (s : State) : (assembleRx s).aa = s.aa := by simp only [assembleRx]
@[simp] theorem assembleRx_hdr (s : State) : (assembleRx s).hdr = s.hdr := by simp only [assembleRx]
@[simp] theorem assembleRx_len (s : State) : (assembleRx s).len = s.len := by simp only [assembleRx]
@[simp] theorem assembleRx_trans (s : State) : (assembleRx s).trans = s.trans := by simp only [assembleRx]
@[simp] theorem assembleRx_calcCrc (s : State) : (assembleRx s).calcCrc = s.calcCrc := by simp only [assembleRx]
@[simp] theorem assembleRx_rxCrc (s : State) : (assembleRx s).rxCrc = receivedCrc s.len s.pkt :=
  by simp only [assembleRx]
@[simp] theorem assembleRx_pkt (s : State) : (assembleRx s).pkt = s.pkt := by simp only [assembleRx]
@[simp] theorem assembleRx_result (s : State) : (assembleRx s).result = s.result := by simp only [assembleRx]
@[simp] theorem assembleRx_freeIdx (s : State) : (assembleRx s).freeIdx = s.freeIdx := by simp only [assembleRx]

/-! ### emitRecord -/

@[simp] theorem emitRecord_params (m : Mac) (s : State) : (emitRecord m s).params = s.params :=
  by simp only [emitRecord]
@[simp] theorem emitRecord_port (m : Mac) (s : State) : (emitRecord m s).port = s.port := by simp only [emitRecord]
@[simp] theorem emitRecord_configured (m : Mac) (s : State) : (emitRecord m s).configured = s.configured :=
  by simp only [emitRecord]
@[simp] theorem emitRecord_wp (m : Mac) (s : State) : (emitRecord m s).wp = s.wp := by simp only [emitRecord]
@[simp] theorem emitRecord_cd (m : Mac) (s : State) : (emitRecord m s).cd = s.cd := by simp only [emitRecord]
@[simp] theorem emitRecord_thr (m : Mac) (s : State) : (emitRecord m s).thr = s.thr := by simp only [emitRecord]
@[simp] theorem emitRecord_ring (m : Mac) (s : State) : (emitRecord m s).ring = s.ring := by simp only [emitRecord]
@[simp] theorem emitRecord_lfsr (m : Mac) (s : State) : (emitRecord m s).lfsr = s.lfsr := by simp only [emitRecord]
@[simp] theorem emitRecord_crc (m : Mac) (s : State) : (emitRecord m s).crc = s.crc := by simp only [emitRecord]
@[simp] theorem emitRecord_aa (m : Mac) (s : State) : (emitRecord m s).aa = s.aa := by simp only [emitRecord]
@[simp] theorem emitRecord_hdr (m : Mac) (s : State) : (emitRecord m s).hdr = s.hdr := by simp only [emitRecord]
@[simp] theorem emitRecord_len (m : Mac) (s : State) : (emitRecord m s).len = s.len := by simp only [emitRecord]
@[simp] theorem emitRecord_trans (m : Mac) (s : State) : (emitRecord m s).trans = s.trans := by simp only [emitRecord]
@[simp] theorem emitRecord_calcCrc (m : Mac) (s : State) : (emitRecord m s).calcCrc = s.calcCrc :=
  by simp only [emitRecord]
@[simp] theorem emitRecord_rxCrc (m : Mac) (s : State) : (emitRecord m s).rxCrc = s.rxCrc := by simp only [emitRecord]
@[simp] theorem emitRecord_pkt (m : Mac) (s : State) : (emitRecord m s).pkt = s.pkt := by simp only [emitRecord]
@[simp] theorem emitRecord_result (m : Mac) (s : State) : (emitRecord m s).result = s.result :=
  by simp only [emitRecord]
@[simp] theorem emitRecord_freeIdx (m : Mac) (s : State) : (emitRecord m s).freeIdx = s.freeIdx :=
  by simp only [emitRecord]

/-! ### armCooldown -/

@[simp] theorem armCooldown_params (s : State) : (armCooldown s).params = s.params := rfl
@[simp] theorem armCooldown_port (s : State) : (armCooldown s).port = s.port := rfl
@[simp] theorem armCooldown_configured (s : State) : (armCooldown s).configured = s.configured := rfl
@[simp] theorem armCooldown_wp (s : State) : (armCooldown s).wp = s.wp := rfl
@[simp] theorem armCooldown_cd (s : State) : (armCooldown s).cd = cooldownLen := rfl
@[simp] theorem armCooldown_thr (s : State) : (armCooldown s).thr = s.thr := rfl
@[simp] theorem armCooldown_ring (s : State) : (armCooldown s).ring = s.ring := rfl
@[simp] theorem armCooldown_outq (s : State) : (armCooldown s).outq = s.outq := rfl
@[simp] theorem armCooldown_lfsr (s : State) : (armCooldown s).lfsr = s.lfsr := rfl
@[simp] theorem armCooldown_crc (s : State) : (armCooldown s).crc = s.crc := rfl
@[simp] theorem armCooldown_aa (s : State) : (armCooldown s).aa = s.aa := rfl
@[simp] theorem armCooldown_hdr (s : State) : (armCooldown s).hdr = s.hdr := rfl
@[simp] theorem armCooldown_len (s : State) : (armCooldown s).len = s.len := rfl
@[simp] theorem armCooldown_trans (s : State) : (armCooldown s).trans = s.trans := rfl
@[simp] theorem armCooldown_calcCrc (s : State) : (armCooldown s).calcCrc = s.calcCrc := rfl
@[simp] theorem armCooldown_rxCrc (s : State) : (armCooldown s).rxCrc = s.rxCrc := rfl
@[simp] theorem armCooldown_pkt (s : State) : (armCooldown s).pkt = s.pkt := rfl
@[simp] theorem armCooldown_result (s : State) : (armCooldown s).result = s.result := rfl
@[simp] theorem armCooldown_freeIdx (s : State) : (armCooldown s).freeIdx = s.freeIdx := rfl

/-! ### freshPkt -/

@[simp] theorem freshPkt_params (s : State) : (freshPkt s).params = s.params := by simp only [freshPkt]
@[simp] theorem freshPkt_port (s : State) : (freshPkt s).port = s.port := by simp only [freshPkt]
@[simp] theorem freshPkt_configured (s : State) : (freshPkt s).configured = s.configured := by simp only [freshPkt]
@[simp] theorem freshPkt_wp (s : State) : (freshPkt s).wp = s.wp := by simp only [freshPkt]
@[simp] theorem freshPkt_cd (s : State) : (freshPkt s).cd = s.cd := by simp only [freshPkt]
@[simp] theorem freshPkt_thr (s : State) : (freshPkt s).thr = s.thr := by simp only [freshPkt]
@[simp] theorem freshPkt_ring (s : State) : (freshPkt s).ring = s.ring := by simp only [freshPkt]
@[simp] theorem freshPkt_outq (s : State) : (freshPkt s).outq = s.outq := by simp only [freshPkt]
@[simp] theorem freshPkt_lfsr (s : State) : (freshPkt s).lfsr = s.lfsr := by simp only [freshPkt]
@[simp] theorem freshPkt_crc (s : State) : (freshPkt s).crc = s.crc := by simp only [freshPkt]
@[simp] theorem freshPkt_aa (s : State) : (freshPkt s).aa = s.aa := by simp only [freshPkt]
@[simp] theorem freshPkt_hdr (s : State) : (freshPkt s).hdr = s.hdr := by simp only [freshPkt]
@[simp] theorem freshPkt_len (s : State) : (freshPkt s).len = s.len := by simp only [freshPkt]
@[simp] theorem freshPkt_trans (s : State) : (freshPkt s).trans = s.trans := by simp only [freshPkt]
@[simp] theorem freshPkt_calcCrc (s : State) : (freshPkt s).calcCrc = s.calcCrc := by simp only [freshPkt]
@[simp] theorem freshPkt_rxCrc (s : State) : (freshPkt s).rxCrc = s.rxCrc := by simp only [freshPkt]
@[simp] theorem freshPkt_result (s : State) : (freshPkt s).result = s.result := by simp only [freshPkt]
@[simp] theorem freshPkt_freeIdx (s : State) : (freshPkt s).freeIdx = s.freeIdx + pktCap := by simp only [freshPkt]

/-- Reading a buffer built entry by entry. -/
@[simp] theorem bufferOf_getElem {m : Nat} (f : Fin m → Byte) (i : Nat) (h : i < m) : (bufferOf f)[i] = f ⟨i, h⟩ := by
  simp [bufferOf]

/-- Reading a buffer's list, as the statements do. -/
@[simp] theorem bufferOf_toList_getD {m : Nat} (f : Fin m → Byte) (i : Nat) (d : Byte) :
    (bufferOf f).toList.getD i d = if h : i < m then f ⟨i, h⟩ else d := by
  show (List.ofFn f).getD i d = _
  split_ifs with h <;> simp [List.getD_eq_getElem?_getD, h]

/-! ### The fields with a longer equation -/

@[simp] theorem pushSample_ring (v : Sample) (s : State) :
    (pushSample v s).ring = s.ring.write s.params ((s.wp + 1) % s.params.rbSize) v := by
  show s.ring.write s.params (slotOf s.params (slotOf s.params ((s.wp : Int) + 1) : Nat)) v = _
  rw [slotOf_natCast, slotOf_natCast_succ, Nat.mod_mod]

@[simp] theorem extractSpan_pkt (n : Nat) (s : State) :
    (extractSpan n s).pkt =
      bufferOf fun t : Fin pktCap => if t.val < n then rawByte s (offHdr + 8 * t.val) else s.pkt[t] := rfl

@[simp] theorem runWhitening_hdr_hdr (n : Nat) (ch : Byte) (s : State) :
    (runWhitening .hdr n ch s).hdr = dewhitenVec n s.hdr (whitenSeed ch) := rfl

@[simp] theorem runWhitening_hdr_pkt (n : Nat) (ch : Byte) (s : State) : (runWhitening .hdr n ch s).pkt = s.pkt := rfl

@[simp] theorem runWhitening_pkt_pkt (n : Nat) (ch : Byte) (s : State) :
    (runWhitening .pkt n ch s).pkt = dewhitenVec n s.pkt (whitenSeed ch) := rfl

@[simp] theorem runWhitening_pkt_hdr (n : Nat) (ch : Byte) (s : State) : (runWhitening .pkt n ch s).hdr = s.hdr := rfl

@[simp] theorem runWhitening_lfsr (data : Buffer) (n : Nat) (ch : Byte) (s : State) :
    (runWhitening data n ch s).lfsr = (dewhitenBytes n (bufferBytes s data) (whitenSeed ch)).2 := by
  cases data <;> rfl

/-- Eight pushes are one append of the record. -/
@[simp] theorem emitRecord_outq (m : Mac) (s : State) : (emitRecord m s).outq = s.outq ++ record s.params m := by
  simp [emitRecord, record, outPush]

/-- Every count INGEST passes lies within `PKT`: the bytes are the entries, and no free value is read. -/
@[simp] theorem pktBytes_within (n : Nat) (s : State) (h : n ≤ pktCap) : pktBytes n s = s.pkt.toList.take n := by
  simp [pktBytes, Nat.sub_eq_zero_of_le h]

/-- A count past `PKT` takes all its entries and then free values. -/
theorem pktBytes_beyond (n : Nat) (s : State) (h : pktCap ≤ n) :
    pktBytes n s =
      s.pkt.toList ++ (List.range (n - pktCap)).map fun i => Config.freeBits 8 (s.freeIdx + i) := by
  have hl : s.pkt.toList.length ≤ n := by simpa using h
  rw [pktBytes, List.take_of_length_le hl]

@[simp] theorem freshPkt_pkt (s : State) :
    (freshPkt s).pkt = bufferOf fun i : Fin pktCap => Config.freeBits 8 (s.freeIdx + i.val) := rfl

/-! ### The state after reset -/

@[simp] theorem resetWith_params (p : Params) : (State.resetWith p).params = p := rfl
@[simp] theorem resetWith_ring (p : Params) : (State.resetWith p).ring = [] := rfl
@[simp] theorem resetWith_outq (p : Params) : (State.resetWith p).outq = [] := rfl
@[simp] theorem resetWith_wp (p : Params) : (State.resetWith p).wp = 0 := rfl
@[simp] theorem resetWith_cd (p : Params) : (State.resetWith p).cd = 0#5 := rfl
@[simp] theorem resetWith_configured (p : Params) : (State.resetWith p).configured = false := rfl

end Sys2Proof.Machine
end

