-- ==== Sys2Proof/Laws/Ops.lean ====
section
/-! SUPPORT. One lemma for each shared operation, saying once what it does; the provers cite these and do not unfold
the operations. -/

namespace Sys2Proof.Machine

/-! ### Bits -/

/-- Bit reversal, bit by bit (45_bit_reversal.md R160). -/
theorem rev_getLsbD (x : Byte) (i : Nat) (h : i < 8) : (rev x).getLsbD i = x.getLsbD (7 - i) := by
  revert x i
  decide +revert

/-- The whitening register after a step, bit by bit (46_dewhitener.md R172, R175). -/
theorem lfsrNext_getLsbD (l : BitVec 8) (i : Nat) (h : i < 8) :
    (lfsrNext l).getLsbD i =
      if i = 0 then false
      else if i = 1 then l.getLsbD 0 ^^ l.getLsbD 7
      else if i = 5 then l.getLsbD 4 ^^ l.getLsbD 7
      else l.getLsbD (i - 1) := by
  revert l i
  decide +revert

/-- The CRC register after a data bit, bit by bit (48_crc24.md R202). -/
theorem crcNext_getLsbD (c : BitVec 24) (d : Bool) (i : Nat) (h : i < 24) :
    (crcNext c d).getLsbD i =
      ((decide (0 < i) && c.getLsbD (i - 1)) ^^ (crcPoly.getLsbD i && (c.getLsbD 23 != d))) := by
  unfold crcNext
  split_ifs with hd
  · simp only [BitVec.getLsbD_xor, BitVec.getLsbD_shiftLeft, hd, Bool.and_true]
    congr 1
    rcases Nat.eq_zero_or_pos i with rfl | hi
    · simp
    · simp [h, hi, Nat.not_lt.2 hi]
  · simp only [Bool.not_eq_true] at hd
    simp only [BitVec.getLsbD_shiftLeft, hd, Bool.and_false, Bool.xor_false]
    rcases Nat.eq_zero_or_pos i with rfl | hi
    · simp
    · simp [h, hi, Nat.not_lt.2 hi]

/-- A byte goes through the CRC in on-air order: bit 7 of the raw byte first (48_crc24.md R203). -/
theorem crcByte_eq (c : BitVec 24) (x : Byte) :
    crcByte c x = (List.range 8).foldl (fun c v => crcNext c (x.getLsbD (7 - v))) c := by
  have h : ∀ v, v < 8 → (rev x).getLsbD v = x.getLsbD (7 - v) := fun v hv => rev_getLsbD x v hv
  simp (disch := decide) only [crcByte, List.range, List.range.loop, List.foldl_cons, List.foldl_nil, h]

/-! ### Ring access -/

/-- A read at a non-negative offset from the write position (20_memory.md R51). -/
theorem memRead_offset (s : State) (k : Nat) :
    memRead s ((s.wp : Int) + k) = s.ring.read s.params ((s.wp + k) % s.params.rbSize) := by
  simp [memRead]

/-- The bit view (42_slicer.md R133). -/
theorem bitAt_eq (s : State) (k : Nat) :
    bitAt s k =
      decide ((s.ring.read s.params ((s.wp + k) % s.params.rbSize)).toInt > s.thr.toInt) := by
  rw [bitAt, memRead_offset]

/-- RB.PUSH moves the write position by one slot (41_ingest_cooldown.md R120). -/
theorem pushSample_wp_eq (v : Sample) (s : State) : (pushSample v s).wp = (s.wp + 1) % s.params.rbSize := by simp

/-- RB.PUSH changes the slot it writes and no other (41_ingest_cooldown.md R120). -/
theorem pushSample_read (v : Sample) (s : State) (i : Nat) :
    (pushSample v s).ring.read s.params i =
      if i = (s.wp + 1) % s.params.rbSize then v else s.ring.read s.params i := by
  simp [Memory.read_write]

/-- A raw byte, bit by bit: the lowest offset is bit 7 (44_field_extractor.md R151). -/
theorem rawByte_getLsbD (s : State) (b i : Nat) (h : i < 8) : (rawByte s b).getLsbD i = bitAt s (b + (7 - i)) := by
  have hi : i = 0 ∨ i = 1 ∨ i = 2 ∨ i = 3 ∨ i = 4 ∨ i = 5 ∨ i = 6 ∨ i = 7 := by omega
  unfold rawByte
  rcases hi with rfl | rfl | rfl | rfl | rfl | rfl | rfl | rfl <;>
    simp [List.range, List.range.loop]

/-- The access address, bit by bit: bit n is the bit at offset 8 + n (47_aa_filter_length.md R185). -/
theorem accessAddress_getLsbD (s : State) (n : Nat) (h : n < 32) :
    (accessAddress s).getLsbD n = bitAt s (8 + n) := by
  have key : ∀ (a b c d : Byte) (n : Nat), n < 32 →
      (0#32 ||| (a.setWidth 32 <<< 0) ||| (b.setWidth 32 <<< 8) ||| (c.setWidth 32 <<< 16) |||
        (d.setWidth 32 <<< 24) : BitVec 32).getLsbD n =
      if n < 8 then a.getLsbD n else if n < 16 then b.getLsbD (n - 8)
      else if n < 24 then c.getLsbD (n - 16) else d.getLsbD (n - 24) := by
    intro a b c d n hn
    simp only [BitVec.getLsbD_or, BitVec.getLsbD_shiftLeft, BitVec.getLsbD_setWidth, BitVec.getLsbD_zero]
    split_ifs <;> simp <;> grind
  have h0 : accessAddress s =
      (0#32 ||| ((rev (rawByte s 8)).setWidth 32 <<< 0) ||| ((rev (rawByte s 16)).setWidth 32 <<< 8) |||
        ((rev (rawByte s 24)).setWidth 32 <<< 16) ||| ((rev (rawByte s 32)).setWidth 32 <<< 24) : BitVec 32) := by
    simp [accessAddress, List.range, List.range.loop, offAA]
  rw [h0, key _ _ _ _ n h]
  split_ifs with h1 h2 h3
  · rw [rev_getLsbD _ _ (by omega), rawByte_getLsbD _ _ _ (by omega)]; congr 1; omega
  · rw [rev_getLsbD _ _ (by omega), rawByte_getLsbD _ _ _ (by omega)]; congr 1; omega
  · rw [rev_getLsbD _ _ (by omega), rawByte_getLsbD _ _ _ (by omega)]; congr 1; omega
  · rw [rev_getLsbD _ _ (by omega), rawByte_getLsbD _ _ _ (by omega)]; congr 1; omega

/-! ### The counter, the buffers, the record -/

/-- CD.TICK is a decrement that stops at 0 (41_ingest_cooldown.md R121, R122). -/
theorem tickCooldown_toNat (s : State) : (tickCooldown s).cd.toNat = s.cd.toNat - 1 := by
  have key : ∀ c : BitVec 5, (if c == 0#5 then c else c - 1#5).toNat = c.toNat - 1 := by decide
  exact key s.cd

/-- In-place dewhitening, as a list. -/
@[simp] theorem dewhitenVec_toList {m : Nat} (n : Nat) (v : Vector Byte m) (l : BitVec 8) :
    (dewhitenVec n v l).toList = (dewhitenBytes n v.toList l).1 := rfl

/-- A record has eight entries (30_encoding.md R80). -/
@[simp] theorem record_length (p : Params) (m : Mac) : (record p m).length = 8 := rfl

/-- The gate of 48_crc24.md R206: the record with `calc` = `rx`, the state as it was without. -/
theorem gateRecord_cases (m : Mac) (s : State) :
    (s.calcCrc = s.rxCrc ∧ gateRecord m s = (emitRecord m s, .accept)) ∨
    (s.calcCrc ≠ s.rxCrc ∧ gateRecord m s = (s, .reject .badCrc)) := by
  by_cases h : s.calcCrc = s.rxCrc
  · exact .inl ⟨h, if_pos (beq_iff_eq.2 h)⟩
  · exact .inr ⟨h, if_neg (mt beq_iff_eq.1 h)⟩

/-! ### The sequencer and the step: everything they can do -/

/-- The outcomes of an INGEST (40_commands_sequencer.md R107), each with its condition and the state it leaves. -/
theorem ingest_cases (v : Sample) (s : State) :
    (s.configured = false ∧ ingest v s = (s, .reject .notConfigured)) ∨
    (s.configured = true ∧ s.cd ≠ 0#5 ∧ ingest v s = (tickCooldown (pushSample v s), .cool)) ∨
    (s.configured = true ∧ s.cd = 0#5 ∧ ∃ w, w = countTransitions (setThreshold (tickCooldown (pushSample v s))) ∧
      ((preOk w = false ∧ ingest v s = (w, .reject .noPreamble)) ∨
       (preOk w = true ∧ aaOk (assembleAddress w) = false ∧
          ingest v s = (assembleAddress w, .reject .badAA)) ∨
       (preOk w = true ∧ aaOk (assembleAddress w) = true ∧
          ∃ d, d = armCooldown (processCandidate (assembleAddress w)) ∧
          ((crcOk d = false ∧ ingest v s = (d, .reject .badCrc)) ∨
           (crcOk d = true ∧ ingest v s = (emitRecord (deviceAddress d.pkt) d, .accept)))))) := by
  unfold ingest sequencer
  cases hc : s.configured with
  | false => exact .inl ⟨rfl, rfl⟩
  | true =>
    have he : eligible (pushSample v s) = (s.cd == 0#5) := rfl
    by_cases hcd : s.cd = 0#5
    · refine .inr (.inr ⟨rfl, hcd, _, rfl, ?_⟩)
      have he1 : eligible (pushSample v s) = true := by rw [he, hcd]; rfl
      simp only [if_true, he1, searchWindow, filterCandidate, decideCandidate, gateRecord, raiseReject]
      generalize countTransitions (setThreshold (tickCooldown (pushSample v s))) = w
      cases hp : preOk w with
      | false => exact .inl ⟨rfl, by simp⟩
      | true =>
        cases ha : aaOk (assembleAddress w) with
        | false => exact .inr (.inl ⟨rfl, rfl, by simp⟩)
        | true =>
          refine .inr (.inr ⟨rfl, rfl, _, rfl, ?_⟩)
          generalize armCooldown (processCandidate (assembleAddress w)) = d
          cases hk : crcOk d with
          | false => exact .inl ⟨rfl, by simp⟩
          | true => exact .inr ⟨rfl, by simp⟩
    · refine .inr (.inl ⟨rfl, hcd, ?_⟩)
      have he1 : eligible (pushSample v s) = false := by rw [he]; simpa using hcd
      simp only [if_true, he1]
      rfl

/-- What a step that goes on can be: nothing on the port, a reserved command word dropped, or one operation. -/
theorem step_cases {s t : State} (h : step s = .next t) :
    s.params.legal = true ∧
      ((s.port = [] ∧ t = s) ∨
       (∃ w ws, s.port = w :: ws ∧ decode w = .reject .reservedCommand ∧ t = { s with port := ws }) ∨
       (∃ w ws i, s.port = w :: ws ∧ decode w = .ok i ∧ exec i { s with port := ws } = .next t)) := by
  unfold step at h
  cases hl : s.params.legal with
  | false => rw [hl] at h; simp at h
  | true =>
    refine ⟨rfl, ?_⟩
    rw [hl] at h
    simp only [if_true, takeWord] at h
    cases hp : s.port with
    | nil =>
      rw [hp] at h
      simp only [idle, Host.Outcome.next.injEq] at h
      exact .inl ⟨rfl, h.symm⟩
    | cons w ws =>
      rw [hp] at h
      simp only [runDecoded] at h
      cases hd : decode w with
      | ok i =>
        rw [hd] at h
        exact .inr (.inr ⟨w, ws, i, rfl, hd, h⟩)
      | reject e =>
        rw [hd] at h
        cases e with
        | reservedCommand =>
          simp only [ignoreWord, Host.Outcome.next.injEq] at h
          exact .inr (.inl ⟨w, ws, rfl, hd, h.symm⟩)
        | unusedUnitId => simp [ignoreWord] at h

end Sys2Proof.Machine
end

