-- ==== Sys2Proof/Laws/PerInstr.lean ====
section
/-! SUPPORT. The per-instruction family TableMatch: every operation is encoded under its row of
spec/opcode_table.json. -/

namespace Sys2Proof.Laws.TableMatch

/-- The word agrees with a row: its format's bits under the row's mask are the row's match. -/
def agrees (w : PortWord) (mask pattern : Nat) : Prop :=
  match w with
  | .command c => c &&& BitVec.ofNat 18 mask = BitVec.ofNat 18 pattern
  | .unitOp id _ => id &&& BitVec.ofNat 5 mask = BitVec.ofNat 5 pattern

/-- The row's mask and match, as spec/opcode_table.json writes them. -/
def row : Instr → Nat × Nat
  | .reset => (0x30000, 0x00000)
  | .ingest _ => (0x30000, 0x10000)
  | .configure => (0x30000, 0x20000)
  | .rbPush _ => (0x1F, 0x00)
  | .cdTick => (0x1F, 0x01)
  | .slThresh => (0x1F, 0x02)
  | .slBit _ => (0x1F, 0x03)
  | .pdDetect => (0x1F, 0x04)
  | .fxByte _ => (0x1F, 0x05)
  | .fxSpan _ => (0x1F, 0x06)
  | .brRev _ => (0x1F, 0x07)
  | .dwSeed _ => (0x1F, 0x08)
  | .dwStep => (0x1F, 0x09)
  | .dwRun _ _ _ => (0x1F, 0x0A)
  | .aaAsm => (0x1F, 0x0B)
  | .aaCmp => (0x1F, 0x0C)
  | .ldLen => (0x1F, 0x0D)
  | .crcInit _ => (0x1F, 0x0E)
  | .crcBit _ => (0x1F, 0x0F)
  | .crcRun _ _ => (0x1F, 0x10)
  | .crcRxasm => (0x1F, 0x11)
  | .crcCmp => (0x1F, 0x12)
  | .feAddr => (0x1F, 0x13)
  | .feEmit _ => (0x1F, 0x14)
  | .cdArm => (0x1F, 0x15)

/-- The encoding of an operation agrees with its row. -/
def Statement (i : Instr) : Prop := agrees (encode i) (row i).1 (row i).2

/-- A sample under the operation field of a command word. -/
theorem command_mask (op : BitVec 2) (imm : BitVec 16) : (op ++ imm : BitVec 18) &&& 0x30000#18 = op ++ 0#16 := by
  apply BitVec.eq_of_getLsbD_eq
  intro i hi
  have hm : ∀ i, i < 18 → (0x30000#18).getLsbD i = decide (16 ≤ i) := by decide
  rw [BitVec.getLsbD_and, BitVec.getLsbD_append, BitVec.getLsbD_append, hm i hi]
  by_cases h : i < 16
  · simp [h, Nat.not_le.2 h]
  · simp [h, Nat.not_lt.1 h]

theorem reset : Statement .reset := by show _ &&& _ = _; decide
theorem ingest (s : Sample) : Statement (.ingest s) :=
  show (0b01#2 ++ s : BitVec 18) &&& BitVec.ofNat 18 0x30000 = BitVec.ofNat 18 0x10000 from command_mask 0b01#2 s
theorem configure : Statement .configure := by show _ &&& _ = _; decide
theorem rbPush (s : Sample) : Statement (.rbPush s) :=
  show 0#5 &&& BitVec.ofNat 5 0x1F = BitVec.ofNat 5 0x00 from by decide
theorem cdTick : Statement .cdTick :=
  show 1#5 &&& BitVec.ofNat 5 0x1F = BitVec.ofNat 5 0x01 from by decide
theorem slThresh : Statement .slThresh :=
  show 2#5 &&& BitVec.ofNat 5 0x1F = BitVec.ofNat 5 0x02 from by decide
theorem slBit (k : Nat) : Statement (.slBit k) :=
  show 3#5 &&& BitVec.ofNat 5 0x1F = BitVec.ofNat 5 0x03 from by decide
theorem pdDetect : Statement .pdDetect :=
  show 4#5 &&& BitVec.ofNat 5 0x1F = BitVec.ofNat 5 0x04 from by decide
theorem fxByte (b : Nat) : Statement (.fxByte b) :=
  show 5#5 &&& BitVec.ofNat 5 0x1F = BitVec.ofNat 5 0x05 from by decide
theorem fxSpan (n : Nat) : Statement (.fxSpan n) :=
  show 6#5 &&& BitVec.ofNat 5 0x1F = BitVec.ofNat 5 0x06 from by decide
theorem brRev (x : Byte) : Statement (.brRev x) :=
  show 7#5 &&& BitVec.ofNat 5 0x1F = BitVec.ofNat 5 0x07 from by decide
theorem dwSeed (ch : Byte) : Statement (.dwSeed ch) :=
  show 8#5 &&& BitVec.ofNat 5 0x1F = BitVec.ofNat 5 0x08 from by decide
theorem dwStep : Statement .dwStep :=
  show 9#5 &&& BitVec.ofNat 5 0x1F = BitVec.ofNat 5 0x09 from by decide
theorem dwRun (data : Buffer) (n : Nat) (ch : Byte) : Statement (.dwRun data n ch) :=
  show 10#5 &&& BitVec.ofNat 5 0x1F = BitVec.ofNat 5 0x0A from by decide
theorem aaAsm : Statement .aaAsm :=
  show 11#5 &&& BitVec.ofNat 5 0x1F = BitVec.ofNat 5 0x0B from by decide
theorem aaCmp : Statement .aaCmp :=
  show 12#5 &&& BitVec.ofNat 5 0x1F = BitVec.ofNat 5 0x0C from by decide
theorem ldLen : Statement .ldLen :=
  show 13#5 &&& BitVec.ofNat 5 0x1F = BitVec.ofNat 5 0x0D from by decide
theorem crcInit (seed : BitVec 24) : Statement (.crcInit seed) :=
  show 14#5 &&& BitVec.ofNat 5 0x1F = BitVec.ofNat 5 0x0E from by decide
theorem crcBit (d : Bool) : Statement (.crcBit d) :=
  show 15#5 &&& BitVec.ofNat 5 0x1F = BitVec.ofNat 5 0x0F from by decide
theorem crcRun (n : Nat) (seed : BitVec 24) : Statement (.crcRun n seed) :=
  show 16#5 &&& BitVec.ofNat 5 0x1F = BitVec.ofNat 5 0x10 from by decide
theorem crcRxasm : Statement .crcRxasm :=
  show 17#5 &&& BitVec.ofNat 5 0x1F = BitVec.ofNat 5 0x11 from by decide
theorem crcCmp : Statement .crcCmp :=
  show 18#5 &&& BitVec.ofNat 5 0x1F = BitVec.ofNat 5 0x12 from by decide
theorem feAddr : Statement .feAddr :=
  show 19#5 &&& BitVec.ofNat 5 0x1F = BitVec.ofNat 5 0x13 from by decide
theorem feEmit (mac : Mac) : Statement (.feEmit mac) :=
  show 20#5 &&& BitVec.ofNat 5 0x1F = BitVec.ofNat 5 0x14 from by decide
theorem cdArm : Statement .cdArm :=
  show 21#5 &&& BitVec.ofNat 5 0x1F = BitVec.ofNat 5 0x15 from by decide

end Sys2Proof.Laws.TableMatch
end

