-- ==== Sys2Proof/Laws/Streams.lean ====
section
/-! SUPPORT. The byte-stream operations bit by bit: dewhitening, the CRC over bytes, the assembled fields. -/

namespace Sys2Proof.Machine

/-! ### The whitening register -/

theorem lfsrAfter_add (l : BitVec 8) (a b : Nat) : lfsrAfter (lfsrAfter l a) b = lfsrAfter l (a + b) := by
  induction b with
  | zero => rfl
  | succ b ih =>
    show lfsrNext (lfsrAfter (lfsrAfter l a) b) = lfsrNext (lfsrAfter l (a + b))
    rw [ih]

/-- One masked XOR of a dewhitening step touches one bit. -/
theorem maskXor_getLsbD (d : Byte) (b : Bool) (c i : Nat) (hc : c < 8) (hi : i < 8) :
    (if b then d ^^^ (0x80#8 >>> c) else d).getLsbD i = (d.getLsbD i ^^ (b && decide (i = 7 - c))) := by
  have hm : ∀ c, c < 8 → ∀ i, i < 8 → (0x80#8 >>> c : BitVec 8).getLsbD i = decide (i = 7 - c) := by decide
  cases b
  · simp
  · simp only [if_true, BitVec.getLsbD_xor, hm c hc i hi, Bool.true_and]

/-- The first n steps of a byte's dewhitening: the register has moved n steps on, the first n bits from the top
have taken its top bits. -/
theorem dewhitenByte_prefix (d : Byte) (l : BitVec 8) (n : Nat) (hn : n ≤ 8) :
    ((List.range n).foldl
      (fun q c => (if whitenBit q.2 then q.1 ^^^ (0x80#8 >>> c) else q.1, lfsrNext q.2)) (d, l)).2 = lfsrAfter l n ∧
    ∀ c < 8, ((List.range n).foldl
      (fun q c => (if whitenBit q.2 then q.1 ^^^ (0x80#8 >>> c) else q.1, lfsrNext q.2)) (d, l)).1.getLsbD (7 - c) =
        (d.getLsbD (7 - c) ^^ (decide (c < n) && (lfsrAfter l c).getLsbD 7)) := by
  induction n with
  | zero => simp [lfsrAfter]
  | succ n ih =>
    obtain ⟨h2, h1⟩ := ih (by omega)
    rw [List.range_succ, List.foldl_append]
    simp only [List.foldl_cons, List.foldl_nil]
    refine ⟨by rw [h2]; rfl, fun c hc => ?_⟩
    rw [maskXor_getLsbD _ _ n (7 - c) (by omega) (by omega), h1 c hc, h2]
    have hw : whitenBit (lfsrAfter l n) = (lfsrAfter l n).getLsbD 7 := rfl
    rw [hw]
    rcases Nat.lt_trichotomy c n with h | h | h
    · have e1 : decide (7 - c = 7 - n) = false := by simp; omega
      have e2 : decide (c < n) = true := by simp [h]
      have e3 : decide (c < n + 1) = true := by simp; omega
      simp only [e1, e2, e3, Bool.and_false, Bool.xor_false, Bool.true_and]
    · subst h
      simp
    · have e1 : decide (7 - c = 7 - n) = false := by simp; omega
      have e2 : decide (c < n) = false := by simp; omega
      have e3 : decide (c < n + 1) = false := by simp; omega
      simp only [e1, e2, e3, Bool.and_false, Bool.xor_false, Bool.false_and]

/-- A dewhitened byte, bit 7 first, and the register it leaves (46_dewhitener.md R173). -/
theorem dewhitenByte_spec (d : Byte) (l : BitVec 8) :
    (∀ c < 8, (dewhitenByte d l).1.getLsbD (7 - c) = (d.getLsbD (7 - c) ^^ (lfsrAfter l c).getLsbD 7)) ∧
    (dewhitenByte d l).2 = lfsrAfter l 8 := by
  obtain ⟨h2, h1⟩ := dewhitenByte_prefix d l 8 (le_refl 8)
  refine ⟨fun c hc => ?_, h2⟩
  have h := h1 c hc
  simp only [hc, decide_true, Bool.true_and] at h
  exact h

/-- A dewhitening run XORs the register's top bits into its first n bytes (46_dewhitener.md R173, R176). -/
theorem dewhitenBytes_getD (n : Nat) (ds : List Byte) (l : BitVec 8) (k c : Nat) (hk : k < n) (hd : k < ds.length)
    (hc : c < 8) :
    ((dewhitenBytes n ds l).1.getD k 0#8).getLsbD (7 - c) =
      ((ds.getD k 0#8).getLsbD (7 - c) ^^ (lfsrAfter l (8 * k + c)).getLsbD 7) := by
  induction n generalizing ds l k with
  | zero => omega
  | succ n ih =>
    cases ds with
    | nil => simp at hd
    | cons d ds =>
      cases k with
      | zero =>
        simp only [dewhitenBytes, List.getD_cons_zero, Nat.mul_zero, Nat.zero_add]
        exact (dewhitenByte_spec d l).1 c hc
      | succ k =>
        simp only [dewhitenBytes, List.getD_cons_succ]
        rw [ih ds _ k (by omega) (by simpa using hd), (dewhitenByte_spec d l).2, lfsrAfter_add]
        congr 3
        omega

/-- Bytes from n upward stay (46_dewhitener.md R173). -/
theorem dewhitenBytes_getD_beyond (n : Nat) (ds : List Byte) (l : BitVec 8) (k : Nat) (hk : n ≤ k) :
    (dewhitenBytes n ds l).1.getD k 0#8 = ds.getD k 0#8 := by
  induction n generalizing ds l k with
  | zero => rfl
  | succ n ih =>
    cases ds with
    | nil => exact ih [] _ k (by omega)
    | cons d ds =>
      cases k with
      | zero => omega
      | succ k =>
        simp only [dewhitenBytes, List.getD_cons_succ]
        exact ih ds _ k (by omega)

/-- The register a run of n bytes leaves, whatever the data and however many of them the buffer holds
(46_dewhitener.md R173, R174). -/
theorem dewhitenBytes_register (n : Nat) (ds : List Byte) (l : BitVec 8) :
    (dewhitenBytes n ds l).2 = lfsrAfter l (8 * n) := by
  have step8 : ∀ n (l : BitVec 8), lfsrAfter (lfsrAfter l 8) (8 * n) = lfsrAfter l (8 * (n + 1)) := fun n l => by
    rw [lfsrAfter_add]
    congr 1
    omega
  induction n generalizing ds l with
  | zero => rfl
  | succ n ih =>
    cases ds with
    | nil => rw [dewhitenBytes, ih, (dewhitenByte_spec 0#8 l).2, step8]
    | cons d ds =>
      simp only [dewhitenBytes]
      rw [ih, (dewhitenByte_spec d l).2, step8]

/-! ### The CRC over bytes -/

theorem onAirBits_cons (x : Byte) (xs : List Byte) :
    onAirBits (x :: xs) = (List.range 8).map (fun c => x.getLsbD (7 - c)) ++ onAirBits xs := rfl

theorem onAirBits_length (xs : List Byte) : (onAirBits xs).length = 8 * xs.length := by
  induction xs with
  | nil => rfl
  | cons x xs ih => rw [onAirBits_cons, List.length_append, ih]; simp; omega

/-- The CRC takes the bits of its bytes in on-air order (48_crc24.md R203). -/
theorem crcBytes_eq_crcOnAir (c : BitVec 24) (xs : List Byte) : crcBytes c xs = crcOnAir c xs := by
  induction xs generalizing c with
  | nil => rfl
  | cons x xs ih =>
    show crcBytes (crcByte c x) xs = (onAirBits (x :: xs)).foldl crcNext c
    rw [ih, onAirBits_cons, List.foldl_append, List.foldl_map, crcByte_eq]
    rfl

/-! ### The assembled fields -/

/-- The length, bit by bit (47_aa_filter_length.md R190). -/
theorem lengthField_getLsbD (h : Byte) (i : Nat) (hi : i < 6) : (lengthField h).getLsbD i = h.getLsbD (7 - i) := by
  revert h i
  decide +revert

/-- The seed, bit by bit (46_dewhitener.md R171). -/
theorem whitenSeed_getLsbD (ch : Byte) (i : Nat) (hi : i < 8) :
    (whitenSeed ch).getLsbD i = (decide (i = 1) || ch.getLsbD (7 - i)) := by
  revert ch i
  decide +revert

/-- Three bytes side by side, as a number. -/
theorem threeBytes_toNat (a b c : Byte) : (a ++ b ++ c : BitVec 24).toNat = a.toNat * 65536 + b.toNat * 256 + c.toNat := by
  have ha := a.isLt
  have hb := b.isLt
  have hc := c.isLt
  rw [BitVec.toNat_append, BitVec.toNat_append, Nat.shiftLeft_eq, Nat.shiftLeft_eq,
    ← Nat.shiftLeft_eq, ← Nat.shiftLeft_add_eq_or_of_lt hc, ← Nat.shiftLeft_eq, ← Nat.shiftLeft_add_eq_or_of_lt hb,
    Nat.shiftLeft_eq, Nat.shiftLeft_eq]
  omega

/-- What RESET leaves (40_commands_sequencer.md R101). -/
theorem resetState_spec (s : State) :
    (resetState s).configured = false ∧ (resetState s).wp = 0 ∧ (resetState s).cd = 0#5 ∧ (resetState s).thr = 0#16 ∧
    (resetState s).ring = [] ∧ (resetState s).outq = [] ∧ (resetState s).params = s.params ∧
    (resetState s).port = s.port := ⟨rfl, rfl, rfl, rfl, rfl, rfl, rfl, rfl⟩

end Sys2Proof.Machine
end

