-- ==== Sys2Proof/Tests/Slice0.lean ====
section
/-! SUPPORT. The model's own tests (expected values from 95_test_vectors.md and the rules' examples) and a witness for
the hypotheses of every statement. -/

open Sys2Proof Sys2Proof.Machine

namespace Sys2Proof.Tests

/-! ### Helpers -/

/-- The state an operation leaves, if it goes on. -/
def after (i : Instr) (s : State) : Option State :=
  match exec i s with
  | .next t => some t
  | .fault _ => none
  | .refused _ => none

/-- `after`, with a look at the state. -/
def look {α : Type} (f : State → α) (i : Instr) (s : State) : Option α := (after i s).map f

/-- Configured, just after reset. -/
def ready : State := { State.reset with configured := true }

/-- Samples in slots from 0 upward, `wp` and `thr` given. -/
def bench (samples : List Sample) (wp : Nat) (thr : Sample) : State :=
  { State.resetWith { defaultParams with rbInit := samples } with configured := true, wp := wp, thr := thr }

/-- +100 for a 1 bit, -100 for a 0 bit (30_encoding.md R88). -/
def sampleOf (b : Bool) : Sample := if b then 100#16 else BitVec.ofInt 16 (-100)

/-- The nine samples of a preamble window. -/
def nine (bits : List Bool) : State := bench (bits.map sampleOf) 0 0#16

/-- `PKT` with the given first bytes. -/
def withPkt (bytes : List Byte) (len : BitVec 6) : State :=
  { ready with pkt := bufferOf fun i => bytes.getD i.val 0#8, len := len }

/-- The on-air bits of the reference packet (95_test_vectors.md section 0) with its last whitened byte given. -/
def airBits (last : Byte) : List Bool :=
  onAirBits [0x55#8, 0x6B#8, 0x7D#8, 0x91#8, 0x71#8, 0x6B#8, 0x33#8, 0x44#8, 0xAE#8, 0xB8#8, 0xB7#8, 0xC3#8, 0x79#8,
    0x98#8, 0x25#8, 0x95#8, 0x3F#8, 0xE6#8, last]

/-- The ring of program P2: bit i of the packet in slot 1 + i, for i from 1. -/
def preloaded (bits : List Bool) : State := bench ([0#16, 0#16] ++ bits.tail.map sampleOf) 0 0#16

/-- Program P2: one INGEST away from accepting the reference packet. -/
def packetReady : State := preloaded (airBits 0xBC#8)

/-- As P2 with the CRC byte of program P4. -/
def badCrcReady : State := preloaded (airBits 0x43#8)

/-- The newest sample of program P2. -/
def low : Sample := BitVec.ofInt 16 (-100)

/-! ### Well-formedness refuses -/

theorem test_wf_slBit : (Instr.slBit 65536).wellFormed = false ∧ (Instr.slBit 583).wellFormed = true := by decide
theorem test_wf_fxByte : (Instr.fxByte 65536).wellFormed = false ∧ (Instr.fxByte 576).wellFormed = true := by decide
theorem test_wf_fxSpan : (Instr.fxSpan 256).wellFormed = false ∧ (Instr.fxSpan 68).wellFormed = true := by decide
theorem test_wf_dwRun : (Instr.dwRun .hdr 256 38#8).wellFormed = false ∧ (Instr.dwRun .pkt 68 38#8).wellFormed = true := by
  decide
theorem test_wf_crcRun : (Instr.crcRun 256 0#24).wellFormed = false ∧ (Instr.crcRun 65 0#24).wellFormed = true := by
  decide
theorem test_legal_ring : ({ defaultParams with rbSize := 583 } : Params).legal = false ∧ defaultParams.legal = true := by
  decide
theorem test_decode_refuses : decode (.unitOp 22#5 0#48) = .reject .unusedUnitId ∧
    decode (.command 0x30000#18) = .reject .reservedCommand := by decide
/-- Bits above the operands are ignored, and offsets past 583 decode. -/
theorem test_decode_ignores : decode (.unitOp 4#5 1#48) = .ok .pdDetect ∧
    decode (.unitOp 7#5 0xFF26#48) = .ok (.brRev 0x26#8) ∧ decode (.unitOp 3#5 584#48) = .ok (.slBit 584) := by decide

/-! ### Decoding: the words of 30_encoding.md R76 and R84 -/

theorem test_decode_reset : decode (.command 0x00000#18) = .ok .reset := by decide
theorem test_decode_ingest : decode (.command 0x1FF9C#18) = .ok (.ingest (BitVec.ofInt 16 (-100))) := by decide
theorem test_decode_configure : decode (.command 0x20000#18) = .ok .configure := by decide
theorem test_decode_rbPush : decode (.unitOp 0b00000#5 0xFFF9#48) = .ok (.rbPush (BitVec.ofInt 16 (-7))) := by decide
theorem test_decode_cdTick : decode (.unitOp 0b00001#5 0#48) = .ok .cdTick := by decide
theorem test_decode_slThresh : decode (.unitOp 0b00010#5 0#48) = .ok .slThresh := by decide
theorem test_decode_slBit : decode (.unitOp 0b00011#5 583#48) = .ok (.slBit 583) := by decide
theorem test_decode_pdDetect : decode (.unitOp 0b00100#5 0#48) = .ok .pdDetect := by decide
theorem test_decode_fxByte : decode (.unitOp 0b00101#5 40#48) = .ok (.fxByte 40) := by decide
theorem test_decode_fxSpan : decode (.unitOp 0b00110#5 14#48) = .ok (.fxSpan 14) := by decide
theorem test_decode_brRev : decode (.unitOp 0b00111#5 0x26#48) = .ok (.brRev 0x26#8) := by decide
theorem test_decode_dwSeed : decode (.unitOp 0b01000#5 38#48) = .ok (.dwSeed 38#8) := by decide
theorem test_decode_dwStep : decode (.unitOp 0b01001#5 0#48) = .ok .dwStep := by decide
theorem test_decode_dwRun : decode (.unitOp 0b01010#5 0x10E26#48) = .ok (.dwRun .pkt 14 38#8) ∧
    decode (.unitOp 0b01010#5 0x00226#48) = .ok (.dwRun .hdr 2 38#8) := by decide
theorem test_decode_aaAsm : decode (.unitOp 0b01011#5 0#48) = .ok .aaAsm := by decide
theorem test_decode_aaCmp : decode (.unitOp 0b01100#5 0#48) = .ok .aaCmp := by decide
theorem test_decode_ldLen : decode (.unitOp 0b01101#5 0#48) = .ok .ldLen := by decide
theorem test_decode_crcInit : decode (.unitOp 0b01110#5 0x555555#48) = .ok (.crcInit 0x555555#24) := by decide
theorem test_decode_crcBit : decode (.unitOp 0b01111#5 1#48) = .ok (.crcBit true) := by decide
theorem test_decode_crcRun : decode (.unitOp 0b10000#5 0x0B555555#48) = .ok (.crcRun 11 0x555555#24) := by decide
theorem test_decode_crcRxasm : decode (.unitOp 0b10001#5 0#48) = .ok .crcRxasm := by decide
theorem test_decode_crcCmp : decode (.unitOp 0b10010#5 0#48) = .ok .crcCmp := by decide
theorem test_decode_feAddr : decode (.unitOp 0b10011#5 0#48) = .ok .feAddr := by decide
theorem test_decode_feEmit : decode (.unitOp 0b10100#5 0x112233445566#48) =
    .ok (.feEmit ⟨0x11#8, 0x22#8, 0x33#8, 0x44#8, 0x55#8, 0x66#8⟩) := by decide
theorem test_decode_cdArm : decode (.unitOp 0b10101#5 0#48) = .ok .cdArm := by decide

/-- Every row of the table decodes, and its word runs as the first operation after reset. -/
theorem test_table_rows_run :
    ([(24, 0x00000), (24, 0x10000), (24, 0x20000)] ++ (List.range 22).map (fun id => (8, id))).all (fun r =>
      (decodeTableWord r.1 r.2).isSome &&
      match step (State.reset.withFetchWord r.1 r.2) with
      | .next _ => true
      | .fault _ => false
      | .refused _ => false) = true := by decide +kernel

/-! ### Commands (V1 to V9, P1, P2, P4) -/

theorem test_reset : look (fun t => (t.configured, t.wp, t.cd, t.thr, t.ring.length, t.outq.length)) .reset
    { ready with wp := 3, cd := 7#5, thr := 9#16, ring := [(3, 5#16)], outq := [marker 0x41#8] } =
    some (false, 0, 0#5, 0#16, 0, 0) := by decide
theorem test_configure : look id .configure State.reset = some ready := by decide
theorem test_ingest_inert : look id (.ingest 100#16) State.reset = some State.reset := by decide
theorem test_ingest_cool : look id (.ingest 9#16) { ready with cd := 5#5, wp := 10, thr := 33#16 } =
    some { ready with cd := 4#5, wp := 11, thr := 33#16, ring := [(11, 9#16)] } := by decide
theorem test_ingest_accept :
    look (fun t => (t.outq.map taggedWord, t.cd, t.thr, t.calcCrc)) (.ingest low) packetReady =
      some ([0x041#9, 0x111#9, 0x122#9, 0x133#9, 0x144#9, 0x155#9, 0x166#9, 0x042#9], 20#5, BitVec.ofInt 16 (-13),
        0x7D38CE#24) := by decide +kernel
theorem test_ingest_bad_crc : look (fun t => (t.outq, t.cd, t.calcCrc, t.rxCrc)) (.ingest low) badCrcReady =
    some ([], 20#5, 0x7D38CE#24, 0x7D3831#24) := by decide +kernel
theorem test_reserved_command_ignored :
    (match step { ready with port := [.command 0x30000#18] } with
      | .next t => some t
      | .fault _ => none
      | .refused _ => none) = some ready := by decide

/-! ### Unit operations (V10 to V135) -/

theorem test_rbPush : look (fun t => (t.wp, t.ring)) (.rbPush (BitVec.ofInt 16 (-7))) { ready with wp := 999 } =
    some (0, [(0, BitVec.ofInt 16 (-7))]) := by decide
theorem test_rbPush_reset_value_unlists : look (fun t => (t.wp, t.ring)) (.rbPush 0#16)
    { ready with ring := [(0, 4#16), (1, 5#16), (2, 6#16)] } = some (1, [(0, 4#16), (2, 6#16)]) := by decide
theorem test_cdTick : look (fun t => (t.result, t.cd)) .cdTick { ready with cd := 1#5 } = some (.bit false, 0#5) := by
  decide
theorem test_cdTick_floor : look (fun t => (t.result, t.cd)) .cdTick ready = some (.bit true, 0#5) := by decide
theorem test_slThresh_floor : look (fun t => t.thr.toInt) .slThresh (bench [BitVec.ofInt 16 (-25)] 0 0#16) =
    some (-4) := by decide
theorem test_slThresh_extreme :
    look (fun t => t.thr.toInt) .slThresh (bench (List.replicate 8 (BitVec.ofInt 16 (-32768))) 7 0#16) =
      some (-32768) := by decide +kernel
theorem test_slBit_equal_is_zero : look (fun t => t.result) (.slBit 0) (bench [5#16] 0 5#16) = some (.bit false) := by
  decide
theorem test_slBit_wraps : look (fun t => t.result) (.slBit 20)
    { ready with wp := 990, thr := BitVec.ofInt 16 (-1), ring := [(9, low), (10, 0#16), (11, low)] } =
    some (.bit true) := by decide
theorem test_pdDetect : look (fun t => (t.result, t.trans)) .pdDetect
    (nine [true, false, true, false, true, false, true, false, true]) = some (.bit true, 8#4) := by decide +kernel
theorem test_pdDetect_seven : look (fun t => (t.result, t.trans)) .pdDetect
    (nine [false, true, false, true, false, true, false, true, true]) = some (.bit false, 7#4) := by decide +kernel
theorem test_fxByte : look (fun t => t.result) (.fxByte 0) (nine [false, true, true, false, true, false, true, true]) =
    some (.byte 0x6B#8) := by decide +kernel
theorem test_fxSpan : look (fun t => (t.pkt[0], t.pkt[1], t.pkt[2])) (.fxSpan 2)
    { preloaded (airBits 0xBC#8) with wp := 1, pkt := bufferOf fun _ => 0xEE#8 } =
    some (0x6B#8, 0x33#8, 0xEE#8) := by decide +kernel
theorem test_brRev : look (fun t => t.result) (.brRev 0x26#8) ready = some (.byte 0x64#8) := by decide
theorem test_dwSeed : look (fun t => t.lfsr) (.dwSeed 38#8) ready = some 0x66#8 := by decide
theorem test_dwStep : look (fun t => (t.result, t.lfsr)) .dwStep { ready with lfsr := 0xCC#8 } =
    some (.bit true, 0xBA#8) := by decide
theorem test_dwRun_hdr : look (fun t => (t.hdr[0], t.hdr[1], t.lfsr)) (.dwRun .hdr 2 38#8)
    { ready with hdr := #v[0x6B#8, 0x33#8] } = some (0x00#8, 0x90#8, 0x26#8) := by decide +kernel
theorem test_dwRun_pkt : look (fun t => (t.pkt.toList.take 5, t.lfsr)) (.dwRun .pkt 4 38#8)
    (withPkt [0xDE#8, 0xAD#8, 0xBE#8, 0xEF#8, 0x77#8] 0#6) =
    some ([0xB5#8, 0x0E#8, 0x9C#8, 0xEB#8, 0x77#8], 0x88#8) := by decide +kernel
/-- Four bytes over the two of `hdr`: the register runs on to the value the run of four leaves. -/
theorem test_dwRun_past_hdr : look (fun t => (t.hdr[0], t.hdr[1], t.lfsr)) (.dwRun .hdr 4 38#8)
    { ready with hdr := #v[0x6B#8, 0x33#8] } = some (0x00#8, 0x90#8, 0x88#8) := by decide +kernel
theorem test_aaAsm : look (fun t => t.aa) .aaAsm { packetReady with wp := 1 } = some 0x8E89BED6#32 := by decide +kernel
theorem test_aaCmp : look (fun t => t.result) .aaCmp { ready with aa := 0x8E89BED7#32 } = some (.bit false) := by decide
theorem test_ldLen : look (fun t => t.len) .ldLen { ready with hdr := #v[0x00#8, 0x90#8] } = some 9#6 := by decide
theorem test_ldLen_high_bits_ignored : look (fun t => t.len) .ldLen { ready with hdr := #v[0xFF#8, 0x03#8] } =
    some 0#6 := by decide
theorem test_crcInit : look (fun t => t.crc) (.crcInit 0x555555#24) ready = some 0x555555#24 := by decide
theorem test_crcBit : look (fun t => t.crc) (.crcBit false) { ready with crc := 0xAAAAAA#24 } = some 0x55530F#24 := by
  decide
theorem test_crcRun : look (fun t => (t.result, t.calcCrc, t.crc)) (.crcRun 2 0x555555#24)
    (withPkt [0x12#8, 0x34#8, 0x99#8] 0#6) =
    some (.word24 0xD11CA0#24, 0xD11CA0#24, 0xD11CA0#24) := by decide +kernel
theorem test_crcRun_empty : look (fun t => t.calcCrc) (.crcRun 0 0x555555#24) ready = some 0x555555#24 := by decide
theorem test_crcRxasm : look (fun t => t.rxCrc) .crcRxasm (withPkt [0#8, 0#8, 0xB8#8, 0xAD#8, 0x1C#8] 0#6) =
    some 0xB8AD1C#24 := by decide +kernel
theorem test_crcCmp : look (fun t => t.result) .crcCmp { ready with calcCrc := 0x7D38CE#24, rxCrc := 0x7D3831#24 } =
    some (.bit false) := by decide
theorem test_feAddr : look (fun t => t.result) .feAddr
    (withPkt [0#8, 0#8, 0x66#8, 0xAA#8, 0x22#8, 0xCC#8, 0x44#8, 0x88#8] 9#6) =
    some (.address ⟨0x11#8, 0x22#8, 0x33#8, 0x44#8, 0x55#8, 0x66#8⟩) := by decide +kernel
theorem test_feEmit : look (fun t => t.outq.map taggedWord) (.feEmit ⟨0x41#8, 0x42#8, 0x41#8, 0x42#8, 0x41#8, 0x42#8⟩)
    ready = some [0x041#9, 0x141#9, 0x142#9, 0x141#9, 0x142#9, 0x141#9, 0x142#9, 0x042#9] := by decide
/-- R206: nothing is emitted with `calc` not equal to `rx`. -/
theorem test_feEmit_gated : look (fun t => t.outq) (.feEmit ⟨0x11#8, 0x22#8, 0x33#8, 0x44#8, 0x55#8, 0x66#8⟩)
    { ready with calcCrc := 0x7D38CE#24, rxCrc := 0x7D3831#24 } = some [] := by decide
theorem test_cdArm : look (fun t => t.cd) .cdArm ready = some 20#5 := by decide

/-! ### Witnesses: the hypotheses of each statement hold together of concrete values -/

theorem witness_DecodeOfEncodeIsIdentity : (Instr.slBit 583).wellFormed = true := by decide
theorem witness_DecodedWordIsTheEncoding : decode (.unitOp 10#5 0x314426#48) = .ok (.dwRun .pkt 68 38#8) ∧
    decode (.command (0b10#2 ++ 7#16)) = .ok .configure := by decide
theorem witness_StepRunsTheDecodedOperation : ready.params.legal = true ∧
    ({ ready with port := [.command 0x10064#18] } : State).port = .command 0x10064#18 :: [] ∧
    decode (.command 0x10064#18) = .ok (.ingest 100#16) := by decide
theorem witness_PlacedTableWordRuns : ready.params.legal = true ∧ decodeTableWord 24 0x10064 = some (.ingest 100#16) ∧
    decodeTableWord 8 21 = some .cdArm := by decide
theorem witness_ReservedCommandIsIgnored : ready.params.legal = true ∧
    ({ ready with port := [.command (0b11#2 ++ 5#16)] } : State).port = .command (0b11#2 ++ 5#16) :: [] := by decide
theorem witness_IdleAndIllegalRing :
    584 ≤ ({ ready with params := { defaultParams with rbSize := 584 } } : State).params.rbSize ∧ ready.port = [] ∧
    ({ ready with params := { defaultParams with rbSize := 583 } } : State).params.rbSize < 584 := by decide
theorem witness_ExecuteIsTheFoldOfIngest : ready.params.legal = true := by decide
theorem witness_ResetRestoresTheResetState : ready.params = State.reset.params := by decide
theorem witness_ConfigureSetsOnlyTheFlag : ready.configured = true := by decide
theorem witness_IngestBeforeConfigureIsInert : State.reset.configured = false := by decide
theorem witness_IngestWhileCoolingDown : ({ ready with cd := 1#5 } : State).configured = true ∧
    ({ ready with cd := 1#5 } : State).cd ≠ 0#5 := by decide
theorem witness_IngestWithoutPreamble : ready.configured = true ∧ ready.cd = 0#5 ∧
    ¬ Alternates (windowBit (pushSample 7#16 ready)) := by
  refine ⟨by decide, by decide, fun h => ?_⟩
  have h1 := h 1 (by decide)
  revert h1
  decide +kernel

/-- A preamble and, from offset 9 on, no address bits. -/
def wrongAddressReady : State :=
  preloaded [false, true, false, true, false, true, false, true, false]

theorem witness_IngestWithWrongAddress : wrongAddressReady.configured = true ∧ wrongAddressReady.cd = 0#5 ∧
    Alternates (windowBit (pushSample low wrongAddressReady)) ∧
    ¬ CarriesAddress (windowBit (pushSample low wrongAddressReady)) := by
  refine ⟨by decide, by decide, ?_, fun h => ?_⟩
  · unfold Alternates
    decide +kernel
  · have h1 := h 3 (by decide)
    revert h1
    decide +kernel
theorem packetReady_alternates : Alternates (windowBit (pushSample low packetReady)) := by
  unfold Alternates
  decide +kernel
theorem packetReady_carriesAddress : CarriesAddress (windowBit (pushSample low packetReady)) := by
  unfold CarriesAddress
  decide +kernel
theorem witness_IngestProcessesTheCandidate : packetReady.configured = true ∧ packetReady.cd = 0#5 ∧
    Alternates (windowBit (pushSample low packetReady)) ∧ CarriesAddress (windowBit (pushSample low packetReady)) :=
  ⟨by decide, by decide, packetReady_alternates, packetReady_carriesAddress⟩
/-- Both clauses of the statement have a state: the CRC of P2 matches, that of P4 does not. -/
theorem witness_IngestDecidesByTheCrc : packetReady.configured = true ∧ packetReady.cd = 0#5 ∧
    Alternates (windowBit (pushSample low packetReady)) ∧ CarriesAddress (windowBit (pushSample low packetReady)) ∧
    (ingest low packetReady).1.calcCrc = (ingest low packetReady).1.rxCrc ∧
    badCrcReady.configured = true ∧ badCrcReady.cd = 0#5 ∧
    Alternates (windowBit (pushSample low badCrcReady)) ∧ CarriesAddress (windowBit (pushSample low badCrcReady)) ∧
    (ingest low badCrcReady).1.calcCrc ≠ (ingest low badCrcReady).1.rxCrc := by
  refine ⟨by decide, by decide, packetReady_alternates, packetReady_carriesAddress, by decide +kernel, by decide,
    by decide, ?_, ?_, by decide +kernel⟩
  · unfold Alternates
    decide +kernel
  · unfold CarriesAddress
    decide +kernel

/-- Program P2's state with its INGEST on the port. -/
def packetPending : State := { packetReady with port := [encode (.ingest low)] }

theorem packetPending_step : step packetPending = .next (ingest low packetReady).1 := rfl
theorem packetPending_commandsOnly : packetPending.CommandsOnly := by
  intro w hw
  exact ⟨_, List.mem_singleton.1 hw⟩
theorem witness_EmissionNeedsEveryTest : packetPending.CommandsOnly ∧
    step packetPending = .next (ingest low packetReady).1 ∧
    (ingest low packetReady).1.outq ≠ packetPending.outq ∧ (ingest low packetReady).1.outq ≠ [] :=
  ⟨packetPending_commandsOnly, packetPending_step, by decide +kernel, by decide +kernel⟩
/-- The reference packet of 95_test_vectors.md section 0 is `packetBits` of its header and payload, and it lies in the
window of program P2. -/
theorem witness_ConformingPacketIsReceived : packetReady.configured = true ∧ packetReady.cd = 0#5 ∧
    6 ≤ ([0x66#8, 0x55#8, 0x44#8, 0x33#8, 0x22#8, 0x11#8, 0x02#8, 0x01#8, 0x06#8] : List Byte).length ∧
    ([0x66#8, 0x55#8, 0x44#8, 0x33#8, 0x22#8, 0x11#8, 0x02#8, 0x01#8, 0x06#8] : List Byte).length ≤ 63 ∧
    (0x09#8).toNat % 64 =
      ([0x66#8, 0x55#8, 0x44#8, 0x33#8, 0x22#8, 0x11#8, 0x02#8, 0x01#8, 0x06#8] : List Byte).length ∧
    ∀ k b, (packetBits 0x00#8 0x09#8
        [0x66#8, 0x55#8, 0x44#8, 0x33#8, 0x22#8, 0x11#8, 0x02#8, 0x01#8, 0x06#8])[k]? = some b →
      windowBit (pushSample low packetReady) k = b := by
  refine ⟨by decide, by decide, by decide, by decide, by decide, ?_⟩
  have hbits : packetBits 0x00#8 0x09#8
      [0x66#8, 0x55#8, 0x44#8, 0x33#8, 0x22#8, 0x11#8, 0x02#8, 0x01#8, 0x06#8] = airBits 0xBC#8 := by decide +kernel
  have hwin : ∀ k < 152, (airBits 0xBC#8)[k]? = some (windowBit (pushSample low packetReady) k) := by decide +kernel
  have hlen : (airBits 0xBC#8).length = 152 := by decide +kernel
  intro k b h
  rw [hbits] at h
  have hk : k < 152 := by
    rw [← hlen]
    exact (List.getElem?_eq_some_iff.1 h).1
  rw [hwin k hk] at h
  exact Option.some.inj h
theorem witness_MatchingWindow : packetReady.configured = true ∧ packetReady.cd = 0#5 := by decide
theorem witness_CooldownLastsTwentyIngests : ({ ready with cd := 20#5 } : State).configured = true ∧
    ({ ready with cd := 20#5 } : State).cd = 20#5 ∧ (List.replicate 20 7#16).length ≤ 20 := by decide
theorem witness_AtMostOneRecordPerTwentyOneIngests : (List.replicate 21 7#16).length = 21 := by decide
/-- All three clauses: offset 0, the last offset after 1 sample (k = N - 1: T + k = N, not above N), and after 2. -/
theorem witness_WindowInTime : ready.params.legal = true ∧ ready.configured = true ∧
    0 < ([7#16] : List Sample).length ∧ 0 < ready.params.rbSize ∧ 999 < ready.params.rbSize ∧
    ¬ ready.params.rbSize < ([7#16] : List Sample).length + 999 ∧
    ready.params.rbSize < ([7#16, 8#16] : List Sample).length + 999 := by decide
theorem witness_ConstantInputIsNeverAPreamble : defaultParams.legal = true ∧
    (∀ i < defaultParams.rbSize, ringInit defaultParams i = 0#16) ∧ 8 ≤ 8 ∧ ¬ 8 ≤ 7 ∧
    defaultParams.rbSize ≤ 1000 ∧ ¬ defaultParams.rbSize ≤ 999 :=
  ⟨by decide, fun _ _ => rfl, by decide, by decide, by decide, by decide⟩
/-- T1 instance b at its boundary: of 7 samples 50 the threshold is 43, of 8 it is 50. -/
theorem test_constant_input_threshold :
    (ingestAll (List.replicate 7 50#16) ready).thr = 43#16 ∧
    (ingestAll (List.replicate 8 50#16) ready).thr = 50#16 := by decide +kernel
/-- One listed sample, the second ring turned by two slots. -/
theorem witness_RotationIsInvisible : ready.params.legal = true ∧
    SameWindow { ready with ring := [(1, 7#16)] } { ready with wp := 2, ring := [(3, 7#16)] } := by
  refine ⟨by decide, fun k => ?_, rfl⟩
  show ((if (0 + k) % 1000 = 1 then 7#16 else ringInit defaultParams ((0 + k) % 1000)) : Sample).toInt =
    ((if (2 + k) % 1000 = 3 then 7#16 else ringInit defaultParams ((2 + k) % 1000)) : Sample).toInt
  have h : ((0 + k) % 1000 = 1) ↔ ((2 + k) % 1000 = 3) := by omega
  have hz : ∀ i, ringInit defaultParams i = 0#16 := fun _ => rfl
  simp only [h, hz]
theorem witness_WorkingRegistersAreNotReadAcrossIngests :
    ({ ready with thr := 5#16, lfsr := 1#8, pkt := bufferOf fun _ => 3#8 } : State) =
      { ready with
        thr := ({ ready with thr := 5#16, lfsr := 1#8, pkt := bufferOf fun _ => 3#8 } : State).thr
        lfsr := ({ ready with thr := 5#16, lfsr := 1#8, pkt := bufferOf fun _ => 3#8 } : State).lfsr
        pkt := ({ ready with thr := 5#16, lfsr := 1#8, pkt := bufferOf fun _ => 3#8 } : State).pkt } := rfl
theorem witness_OnlyTheWritersWrite : exec .cdArm ready = .next { ready with cd := 20#5 } := rfl
theorem witness_InvariantHoldsAfterReset : defaultParams.legal = true := by decide
theorem ready_inv : ready.Inv where
  legal := by decide
  ring := by decide
  wp := by decide
  cd := by decide
  outq := ⟨[], rfl⟩
theorem packetPending_inv : packetPending.Inv where
  legal := by decide
  ring := by decide
  wp := by decide
  cd := by decide
  outq := ⟨[], rfl⟩
theorem witness_EveryStepKeepsTheInvariant : packetPending.Inv ∧
    step packetPending = .next (ingest low packetReady).1 := ⟨packetPending_inv, packetPending_step⟩
theorem witness_CommandStepsKeepTheReachableStateFacts : packetPending.Inv ∧ packetPending.InertAtReset ∧
    packetPending.CommandsOnly ∧ step packetPending = .next (ingest low packetReady).1 :=
  ⟨packetPending_inv, fun h => absurd h (by decide), packetPending_commandsOnly, packetPending_step⟩
/-- The clauses of CD.TICK's statement meet at 0 and 1. -/
theorem witness_TickTestsThenDecrements : ready.cd.toNat = 0 ∧ 0 < ({ ready with cd := 1#5 } : State).cd.toNat := by
  decide
theorem witness_ExtractSpanFillsPkt : 68 ≤ 68 ∧ 0 ≤ 68 := by decide
theorem witness_WhiteningPeriod : (38#8).toNat < 64 ∧ 0 < 126 ∧ 126 < 127 := by decide
theorem witness_WhiteningRunXorsTheKeystream : 2 ≤ Buffer.cap .hdr ∧ 68 ≤ Buffer.cap .pkt := by decide
theorem witness_WhiteningIsAnInvolution : 2 ≤ Buffer.cap .hdr ∧ 68 ≤ Buffer.cap .pkt := by decide
theorem witness_CrcConsumesOnAirOrder : 68 ≤ 68 := by decide
theorem witness_CrcIsLinear : 68 ≤ 68 ∧
    (∀ i (h : i < 68), ({ ready with pkt := bufferOf fun _ => 5#8 } : State).pkt[i] =
      ({ ready with pkt := bufferOf fun _ => 4#8 } : State).pkt[i] ^^^
      ({ ready with pkt := bufferOf fun _ => 1#8 } : State).pkt[i]) ∧
    (∀ i (h : i < 68), ready.pkt[i] = 0#8) := by
  refine ⟨by decide, fun i h => ?_, fun i h => ?_⟩
  · simp only [bufferOf_getElem]
    decide
  · exact Vector.getElem_replicate h
theorem witness_CrcCatchesEverySingleBitFlip : 68 ≤ 68 ∧ 67 < 68 ∧ 7 < 8 ∧
    ∀ i (h : i < 68),
      ({ ready with pkt := bufferOf fun j => if j.val = 67 then 5#8 ^^^ (1#8 <<< 7) else 5#8 } : State).pkt[i] =
      if i = 67 then ({ ready with pkt := bufferOf fun _ => 5#8 } : State).pkt[i] ^^^ (1#8 <<< 7)
      else ({ ready with pkt := bufferOf fun _ => 5#8 } : State).pkt[i] := by
  refine ⟨by decide, by decide, by decide, fun i h => ?_⟩
  simp only [bufferOf_getElem]
theorem witness_CountsBeyondTheBufferRun : 68 < 69 ∧ Buffer.cap .hdr < 3 ∧ Buffer.cap .pkt < 69 := by decide
/-- Both clauses of FE.EMIT's statement have a state. -/
theorem witness_RecordIsEightEntries : ready.calcCrc = ready.rxCrc ∧
    ({ ready with calcCrc := 1#24 } : State).calcCrc ≠ ({ ready with calcCrc := 1#24 } : State).rxCrc := by decide
theorem witness_RecordNeedsAMatchingCrc : step packetPending = .next (ingest low packetReady).1 ∧
    ¬ packetPending.NextIsReset ∧ (ingest low packetReady).1.outq ≠ packetPending.outq := by
  refine ⟨packetPending_step, fun h => ?_, by decide +kernel⟩
  obtain ⟨w, ws, hp, hd⟩ := h
  have hw : w = encode (.ingest low) := (List.cons.inj hp).1.symm
  rw [hw] at hd
  revert hd
  decide

end Sys2Proof.Tests
end

section
/-! INGEST by its outcome (40_commands_sequencer.md R107): the state each of the six outcomes leaves. -/

namespace Sys2Proof.Machine

/-- The state in which an eligible INGEST tests for the preamble: stages S0 to S3 of 40_commands_sequencer.md R104. -/
def searched (v : Sample) (s : State) : State :=
  countTransitions (setThreshold (tickCooldown (pushSample v s)))

/-- The state in which an INGEST decides by the CRC: stages S0 to S8 of R104, once preamble and address match. -/
def candidate (v : Sample) (s : State) : State :=
  armCooldown (processCandidate (assembleAddress (searched v s)))

/-- The state an INGEST of `v` leaves with a given outcome; `ingest_eq` ties it to `ingest`. -/
def stateAfter (v : Sample) (s : State) : IngestOutcome → State
  | .reject .notConfigured => s
  | .cool => tickCooldown (pushSample v s)
  | .reject .noPreamble => searched v s
  | .reject .badAA => assembleAddress (searched v s)
  | .reject .badCrc => candidate v s
  | .accept => emitRecord (deviceAddress (candidate v s).pkt) (candidate v s)

/-- The outcome of an INGEST, from the tests of R104 in their order; `ingest_eq` ties it to `ingest`. -/
def outcomeOf (v : Sample) (s : State) : IngestOutcome :=
  if s.configured = false then .reject .notConfigured
  else if s.cd ≠ 0#5 then .cool
  else if preOk (searched v s) = false then .reject .noPreamble
  else if aaOk (assembleAddress (searched v s)) = false then .reject .badAA
  else if crcOk (candidate v s) = false then .reject .badCrc
  else .accept

/-- INGEST is its outcome with the state that outcome leaves. -/
theorem ingest_eq (v : Sample) (s : State) : ingest v s = (stateAfter v s (outcomeOf v s), outcomeOf v s) := by
  obtain ⟨hc, h⟩ | ⟨hc, hcd, h⟩ | ⟨hc, hcd, w, rfl, hw⟩ := ingest_cases v s
  · simp [h, outcomeOf, stateAfter, hc]
  · simp [h, outcomeOf, stateAfter, hc, hcd]
  · obtain ⟨hp, h⟩ | ⟨hp, ha, h⟩ | ⟨hp, ha, d, rfl, ⟨hk, h⟩ | ⟨hk, h⟩⟩ := hw <;>
      simp [outcomeOf, stateAfter, searched, candidate, *]

end Sys2Proof.Machine
end

section
/-! What the stages of the search read of the state: the bits of the window, and for a candidate the free values. -/

namespace Sys2Proof.Machine

variable {s t : State}

/-- States with the same fields are the same. -/
theorem state_ext (params : s.params = t.params) (port : s.port = t.port) (configured : s.configured = t.configured)
    (wp : s.wp = t.wp) (cd : s.cd = t.cd) (thr : s.thr = t.thr) (ring : s.ring = t.ring) (outq : s.outq = t.outq)
    (lfsr : s.lfsr = t.lfsr) (crc : s.crc = t.crc) (aa : s.aa = t.aa) (hdr : s.hdr = t.hdr) (len : s.len = t.len)
    (trans : s.trans = t.trans) (calcCrc : s.calcCrc = t.calcCrc) (rxCrc : s.rxCrc = t.rxCrc) (pkt : s.pkt = t.pkt)
    (result : s.result = t.result) (freeIdx : s.freeIdx = t.freeIdx) : s = t := by
  cases s
  cases t
  simp_all

/-- The window reads `params`, `ring` and `wp` (20_memory.md R51). -/
theorem sampleAt_congr (hp : s.params = t.params) (hr : s.ring = t.ring) (hw : s.wp = t.wp) (k : Nat) :
    sampleAt s k = sampleAt t k := by
  rw [sampleAt, sampleAt, hp, hr, hw]

/-- The bit view reads the window and `thr` (42_slicer.md R133). -/
theorem bitAt_congr (hs : ∀ k, sampleAt s k = sampleAt t k) (ht : s.thr = t.thr) (k : Nat) : bitAt s k = bitAt t k := by
  rw [bitAt_eq, bitAt_eq, ← sampleAt, ← sampleAt, hs, ht]

theorem rawByte_congr (h : ∀ k, bitAt s k = bitAt t k) (b : Nat) : rawByte s b = rawByte t b := by
  simp only [rawByte, h]

theorem accessAddress_congr (h : ∀ k, bitAt s k = bitAt t k) : accessAddress s = accessAddress t := by
  simp only [accessAddress, rawByte_congr h]

theorem transitions_congr (h : ∀ k, bitAt s k = bitAt t k) : transitions s = transitions t := by
  simp only [transitions, h]

/-! ### The candidate -/

section frame
variable (s : State)
@[simp] theorem processCandidate_params : (processCandidate s).params = s.params := by simp [processCandidate]
@[simp] theorem processCandidate_port : (processCandidate s).port = s.port := by simp [processCandidate]
@[simp] theorem processCandidate_configured : (processCandidate s).configured = s.configured := by
  simp [processCandidate]
@[simp] theorem processCandidate_wp : (processCandidate s).wp = s.wp := by simp [processCandidate]
@[simp] theorem processCandidate_cd : (processCandidate s).cd = s.cd := by simp [processCandidate]
@[simp] theorem processCandidate_thr : (processCandidate s).thr = s.thr := by simp [processCandidate]
@[simp] theorem processCandidate_ring : (processCandidate s).ring = s.ring := by simp [processCandidate]
@[simp] theorem processCandidate_outq : (processCandidate s).outq = s.outq := by simp [processCandidate]
@[simp] theorem processCandidate_aa : (processCandidate s).aa = s.aa := by simp [processCandidate]
@[simp] theorem processCandidate_trans : (processCandidate s).trans = s.trans := by simp [processCandidate]
@[simp] theorem processCandidate_result : (processCandidate s).result = s.result := by simp [processCandidate]
end frame

/-- The header of a candidate, dewhitened from its two raw bytes (40_commands_sequencer.md R104, stage S5). -/
def dewhitenedHeader (h0 h1 : Byte) : Vector Byte hdrCap := dewhitenVec 2 #v[h0, h1] (whitenSeed channel)

/-- `PKT` of a candidate of payload length n before dewhitening: the raw bytes of the window, then free values
(stage S6). -/
def candidateSpan (s : State) (n : Nat) : Vector Byte pktCap :=
  bufferOf fun i => if i.val < n + 5 then rawByte s (offHdr + 8 * i.val) else Config.freeBits 8 (s.freeIdx + i.val)

/-- CRC.RUN within INGEST reads no byte past `PKT` (48_crc24.md R203). -/
theorem crcCount_le_pktCap (len : BitVec 6) : len.toNat + 2 ≤ pktCap := by
  have := len.isLt
  unfold pktCap
  omega

theorem processCandidate_hdr (s : State) :
    (processCandidate s).hdr = dewhitenedHeader (rawByte s offHdr) (rawByte s (offHdr + 8)) := by
  simp [processCandidate, dewhitenedHeader]

theorem processCandidate_len (s : State) : (processCandidate s).len = lengthField (processCandidate s).hdr[1] := by
  simp [processCandidate]

theorem processCandidate_pkt (s : State) :
    (processCandidate s).pkt =
      dewhitenVec ((processCandidate s).len.toNat + 5) (candidateSpan s (processCandidate s).len.toNat)
        (whitenSeed channel) := by
  have hraw : ∀ b, rawByte (freshPkt (decodeLength (runWhitening .hdr 2 channel (extractHeader s)))) b = rawByte s b :=
    rawByte_congr (bitAt_congr (sampleAt_congr (by simp) (by simp) (by simp)) (by simp))
  simp [processCandidate, candidateSpan, hraw]

theorem processCandidate_lfsr (s : State) :
    (processCandidate s).lfsr = lfsrAfter (whitenSeed channel) (8 * ((processCandidate s).len.toNat + 5)) := by
  simp [processCandidate, dewhitenBytes_register]

theorem processCandidate_calcCrc (s : State) :
    (processCandidate s).calcCrc =
      crcBytes crcSeed ((processCandidate s).pkt.toList.take ((processCandidate s).len.toNat + 2)) := by
  simp [processCandidate, crcCount_le_pktCap]

theorem processCandidate_crc (s : State) : (processCandidate s).crc = (processCandidate s).calcCrc := by
  simp [processCandidate]

theorem processCandidate_rxCrc (s : State) :
    (processCandidate s).rxCrc = receivedCrc (processCandidate s).len (processCandidate s).pkt := by
  simp [processCandidate]

theorem processCandidate_freeIdx (s : State) : (processCandidate s).freeIdx = s.freeIdx + pktCap := by
  simp [processCandidate, Nat.sub_eq_zero_of_le, crcCount_le_pktCap]

/-- What a candidate writes depends on the bits of the window and on the free values, and on nothing else. -/
theorem processCandidate_congr (hb : ∀ k, bitAt s k = bitAt t k) (hf : s.freeIdx = t.freeIdx) :
    processCandidate t =
      { t with
        lfsr := (processCandidate s).lfsr, crc := (processCandidate s).crc, hdr := (processCandidate s).hdr,
        len := (processCandidate s).len, calcCrc := (processCandidate s).calcCrc,
        rxCrc := (processCandidate s).rxCrc, pkt := (processCandidate s).pkt,
        freeIdx := (processCandidate s).freeIdx } := by
  have hhdr : (processCandidate t).hdr = (processCandidate s).hdr := by
    simp only [processCandidate_hdr, rawByte_congr hb]
  have hlen : (processCandidate t).len = (processCandidate s).len := by
    rw [processCandidate_len, processCandidate_len, hhdr]
  have hpkt : (processCandidate t).pkt = (processCandidate s).pkt := by
    simp only [processCandidate_pkt, hlen, candidateSpan, rawByte_congr hb, hf]
  have hcalc : (processCandidate t).calcCrc = (processCandidate s).calcCrc := by
    rw [processCandidate_calcCrc, processCandidate_calcCrc, hlen, hpkt]
  apply state_ext <;>
    simp [hhdr, hlen, hpkt, hcalc, processCandidate_lfsr, processCandidate_crc, processCandidate_rxCrc,
      processCandidate_freeIdx, hf]

end Sys2Proof.Machine
end

section
/-! What INGEST leaves alone, whatever its outcome, and what it does to the queue. -/

namespace Sys2Proof.Machine

/-- The state an INGEST leaves, by its outcome. -/
theorem ingest_fst (v : Sample) (s : State) : (ingest v s).1 = stateAfter v s (outcomeOf v s) := by rw [ingest_eq]

/-- Whatever the outcome, an INGEST leaves the parameters, the port and `configured` (10_state.md R39). -/
theorem stateAfter_frame (v : Sample) (s : State) (o : IngestOutcome) :
    (stateAfter v s o).params = s.params ∧ (stateAfter v s o).port = s.port ∧
    (stateAfter v s o).configured = s.configured := by
  rcases o with (_ | _ | _ | _) | _ | _ <;> simp [stateAfter, candidate, searched]

@[simp] theorem ingest_params (v : Sample) (s : State) : (ingest v s).1.params = s.params := by
  rw [ingest_fst]
  exact (stateAfter_frame v s _).1

@[simp] theorem ingest_port (v : Sample) (s : State) : (ingest v s).1.port = s.port := by
  rw [ingest_fst]
  exact (stateAfter_frame v s _).2.1

@[simp] theorem ingest_configured (v : Sample) (s : State) : (ingest v s).1.configured = s.configured := by
  rw [ingest_fst]
  exact (stateAfter_frame v s _).2.2

/-- The queue gains one record when the outcome is accept, and else nothing (49_field_emitter.md R220, R223). -/
theorem stateAfter_outq (v : Sample) (s : State) (o : IngestOutcome) :
    (stateAfter v s o).outq =
      s.outq ++ if o = .accept then record s.params (deviceAddress (candidate v s).pkt) else [] := by
  rcases o with (_ | _ | _ | _) | _ | _ <;> simp [stateAfter, candidate, searched]

end Sys2Proof.Machine
end

section
/-! The invariant of 10_state.md R37. -/

namespace Sys2Proof.Machine

variable {s t : State}

theorem wholeRecords_nil (p : Params) : wholeRecords p [] := ⟨[], rfl⟩

theorem wholeRecords_append_record {p : Params} {q : List TaggedByte} (h : wholeRecords p q) (m : Mac) :
    wholeRecords p (q ++ record p m) := by
  obtain ⟨macs, rfl⟩ := h
  exact ⟨macs ++ [m], by simp⟩

/-- The invariant speaks of `params`, `ring`, `wp`, `cd` and `outq` only. -/
theorem inv_congr (h : s.Inv) (hp : t.params = s.params) (hr : t.ring = s.ring) (hw : t.wp = s.wp) (hc : t.cd = s.cd)
    (ho : t.outq = s.outq) : t.Inv where
  legal := hp ▸ h.legal
  ring := hp ▸ hr ▸ h.ring
  wp := hp ▸ hw ▸ h.wp
  cd := hc ▸ h.cd
  outq := hp ▸ ho ▸ h.outq

theorem rbSize_pos_of_inv (h : s.Inv) : 0 < s.params.rbSize := Nat.zero_lt_of_lt h.wp

theorem inv_pushSample (v : Sample) (h : s.Inv) : (pushSample v s).Inv where
  legal := h.legal
  ring := by
    rw [pushSample_ring]
    exact Memory.wf_write v h.ring (Nat.mod_lt _ (rbSize_pos_of_inv h))
  wp := by
    rw [pushSample_wp_eq]
    exact Nat.mod_lt _ (rbSize_pos_of_inv h)
  cd := h.cd
  outq := h.outq

theorem inv_tickCooldown (h : s.Inv) : (tickCooldown s).Inv where
  legal := h.legal
  ring := h.ring
  wp := h.wp
  cd := by
    rw [tickCooldown_toNat]
    exact (Nat.sub_le _ _).trans h.cd
  outq := h.outq

theorem inv_armCooldown (h : s.Inv) : (armCooldown s).Inv where
  legal := h.legal
  ring := h.ring
  wp := h.wp
  cd := le_refl 20
  outq := h.outq

theorem inv_emitRecord (m : Mac) (h : s.Inv) : (emitRecord m s).Inv where
  legal := h.legal
  ring := h.ring
  wp := h.wp
  cd := h.cd
  outq := by
    rw [emitRecord_outq]
    exact wholeRecords_append_record h.outq m

theorem inv_gateRecord (m : Mac) (h : s.Inv) : (gateRecord m s).1.Inv := by
  obtain ⟨-, hg⟩ | ⟨-, hg⟩ := gateRecord_cases m s <;> rw [hg]
  · exact inv_emitRecord m h
  · exact h

theorem inv_searched (v : Sample) (h : s.Inv) : (searched v s).Inv :=
  inv_congr (inv_tickCooldown (inv_pushSample v h)) rfl rfl rfl rfl rfl

theorem inv_candidate (v : Sample) (h : s.Inv) : (candidate v s).Inv :=
  inv_armCooldown (inv_congr (inv_searched v h) (by simp) (by simp) (by simp) (by simp) (by simp))

theorem inv_ingest (v : Sample) (h : s.Inv) : (ingest v s).1.Inv := by
  rw [ingest_fst]
  rcases outcomeOf v s with (_ | _ | _ | _) | _ | _
  case reject.notConfigured => exact h
  case reject.noPreamble => exact inv_searched v h
  case reject.badAA => exact inv_congr (inv_searched v h) rfl rfl rfl rfl rfl
  case reject.badCrc => exact inv_candidate v h
  case cool => exact inv_tickCooldown (inv_pushSample v h)
  case accept => exact inv_emitRecord _ (inv_candidate v h)

theorem inv_resetState (h : s.Inv) : (resetState s).Inv := by
  obtain ⟨-, hwp, hcd, -, hring, houtq, hparams, -⟩ := resetState_spec s
  refine ⟨hparams ▸ h.legal, ?_, ?_, ?_, ?_⟩
  · rw [hring, Memory.wf_nil]
  · rw [hwp, hparams]
    exact rbSize_pos_of_inv h
  · simp [hcd]
  · rw [houtq]
    exact wholeRecords_nil _

/-- Every operation keeps the invariant: six of them write what it speaks of, the others leave all of that alone. -/
theorem inv_exec {i : Instr} (h : s.Inv) (he : exec i s = .next t) : t.Inv := by
  cases i
  case reset =>
    cases he
    exact inv_resetState h
  case ingest v =>
    cases he
    exact inv_ingest v h
  case rbPush v =>
    cases he
    exact inv_congr (inv_pushSample v h) rfl rfl rfl rfl rfl
  case cdTick =>
    cases he
    exact inv_congr (inv_tickCooldown h) rfl rfl rfl rfl rfl
  case cdArm =>
    cases he
    exact inv_congr (inv_armCooldown h) rfl rfl rfl rfl rfl
  case feEmit m =>
    cases he
    exact inv_congr (inv_gateRecord m h) rfl rfl rfl rfl rfl
  case dwRun data n ch =>
    cases he
    exact inv_congr h (by simp) (by simp) (by simp) (by simp) (by simp)
  all_goals
    cases he
    exact inv_congr h rfl rfl rfl rfl rfl

/-- Settles O29: each kind of step (idle, a reserved word dropped, one operation) keeps the invariant. -/
theorem everyStepKeepsTheInvariant : Obligations.EveryStepKeepsTheInvariant := by
  intro s t h hstep
  obtain ⟨-, ⟨-, rfl⟩ | ⟨w, ws, -, -, rfl⟩ | ⟨w, ws, i, -, -, he⟩⟩ := step_cases hstep
  · exact h
  · exact inv_congr h rfl rfl rfl rfl rfl
  · have htaken : State.Inv { s with port := ws } := inv_congr h rfl rfl rfl rfl rfl
    exact inv_exec htaken he

/-- Settles O28: nothing is listed, `wp` and `cd` are 0, and the queue is empty. -/
theorem invariantHoldsAfterReset : Obligations.InvariantHoldsAfterReset := by
  intro p hp
  have hN : 584 ≤ p.rbSize := by simpa [Params.legal] using hp
  refine ⟨⟨hp, ?_, ?_, ?_, wholeRecords_nil p⟩, fun _ => ⟨rfl, rfl, fun _ => rfl, rfl⟩⟩
  · rw [resetWith_ring, Memory.wf_nil]
  · rw [resetWith_wp, resetWith_params]
    omega
  · simp

end Sys2Proof.Machine
end

section
/-! Ports that hold only commands (60_exceptions.md R261): what the block as its host can use it keeps. -/

namespace Sys2Proof.Machine

variable {s t : State}

/-- A command word is one of the three commands (30_encoding.md R76). -/
theorem command_of_decode_ok {c : BitVec 18} {i : Instr} (h : decode (.command c) = .ok i) :
    i = .reset ∨ (∃ v, i = .ingest v) ∨ i = .configure := by
  simp only [decode, decodeCommand] at h
  split_ifs at h <;> cases h
  · exact .inl rfl
  · exact .inr (.inl ⟨_, rfl⟩)
  · exact .inr (.inr rfl)

/-- Unconfigured, an INGEST leaves the state as it is (40_commands_sequencer.md R103). -/
theorem ingest_of_unconfigured (v : Sample) (h : s.configured = false) : (ingest v s).1 = s := by
  rw [ingest_fst, outcomeOf, if_pos h]
  rfl

/-- An INGEST keeps the reset values of an unconfigured block (40_commands_sequencer.md R103). -/
theorem inertAtReset_ingest (v : Sample) (h : s.InertAtReset) : (ingest v s).1.InertAtReset := by
  intro hc
  rw [ingest_configured] at hc
  rw [ingest_of_unconfigured v hc]
  exact h hc

theorem inertAtReset_resetState (s : State) : (resetState s).InertAtReset := fun _ => ⟨rfl, rfl, fun _ => rfl, rfl⟩

theorem ingest_outq_grows (v : Sample) (s : State) : ∃ q, (ingest v s).1.outq = s.outq ++ q := by
  rw [ingest_fst, stateAfter_outq]
  exact ⟨_, rfl⟩

/-- What a step does on a port that holds only commands: it may take a word, and then it does nothing more or runs
RESET, INGEST or CONFIGURE. -/
theorem commandStep_cases (hc : s.CommandsOnly) (h : step s = .next t) :
    ∃ ws, (∀ w ∈ ws, w ∈ s.port) ∧
      (t = { s with port := ws } ∨
       (s.NextIsReset ∧ t = resetState { s with port := ws }) ∨
       (∃ v, t = (ingest v { s with port := ws }).1) ∨
       t = { s with port := ws, configured := true }) := by
  obtain ⟨-, ⟨-, rfl⟩ | ⟨w, ws, hp, -, rfl⟩ | ⟨w, ws, i, hp, hd, he⟩⟩ := step_cases h
  · exact ⟨t.port, fun _ hw => hw, .inl rfl⟩
  · exact ⟨ws, fun _ hw => hp ▸ List.mem_cons_of_mem w hw, .inl rfl⟩
  · refine ⟨ws, fun _ hw => hp ▸ List.mem_cons_of_mem w hw, .inr ?_⟩
    obtain ⟨c, rfl⟩ := hc w (hp ▸ List.mem_cons_self)
    obtain rfl | ⟨v, rfl⟩ | rfl := command_of_decode_ok hd <;> cases he
    · exact .inl ⟨⟨_, ws, hp, hd⟩, rfl⟩
    · exact .inr (.inl ⟨v, rfl⟩)
    · exact .inr (.inr rfl)

/-- Settles O30: a command step only takes its word, or it is RESET, INGEST or CONFIGURE. -/
theorem commandStepsKeepTheReachableStateFacts : Obligations.CommandStepsKeepTheReachableStateFacts := by
  intro s t hinv hinert hc hstep
  refine ⟨everyStepKeepsTheInvariant s t hinv hstep, ?_⟩
  obtain ⟨ws, hws, ht⟩ := commandStep_cases hc hstep
  have hleft : ∀ w ∈ ws, ∃ c, w = .command c := fun w hw => hc w (hws w hw)
  obtain rfl | ⟨hreset, rfl⟩ | ⟨v, rfl⟩ | rfl := ht
  · exact ⟨hinert, hleft, by simp_all, fun _ => ⟨[], by simp⟩⟩
  · exact ⟨inertAtReset_resetState _, hleft, fun _ _ => hreset, fun h => absurd hreset h⟩
  · refine ⟨inertAtReset_ingest v hinert, ?_, by simp_all, fun _ => ingest_outq_grows v _⟩
    rw [State.CommandsOnly, ingest_port]
    exact hleft
  · exact ⟨by simp [State.InertAtReset], hleft, by simp, fun _ => ⟨[], by simp⟩⟩

end Sys2Proof.Machine
end

section
/-! Who writes which register (10_state.md R39). -/

namespace Sys2Proof.Machine

/-- The gate of 48_crc24.md R206 writes the queue and nothing else. -/
theorem gateRecord_frame (m : Mac) (s : State) :
    (gateRecord m s).1 = { s with outq := (gateRecord m s).1.outq } := by
  obtain ⟨-, h⟩ | ⟨-, h⟩ := gateRecord_cases m s <;> rw [h]
  rfl

/-- Settles O27. A unit operation is a record update: a field it does not name is unchanged, and it is among the
writers of each field it names. -/
theorem onlyTheWritersWrite : Obligations.OnlyTheWritersWrite := by
  intro i s t h
  cases i
  case reset =>
    obtain ⟨-, -, -, -, -, -, hparams, hport⟩ := resetState_spec s
    cases h
    exact ⟨hparams, hport, by simp [IngestOrReset]⟩
  case ingest v =>
    cases h
    simp [IngestOrReset]
  case dwRun data n ch =>
    cases h
    cases data <;> simp [IngestOrReset]
  case feEmit m =>
    cases h
    rw [gateRecord_frame]
    simp [IngestOrReset]
  all_goals
    cases h
    simp [IngestOrReset, seedWhitening, stepWhitening, initCrc, shiftCrc]

end Sys2Proof.Machine
end

section
/-! Two states an INGEST cannot tell apart: what decides its outcome and what its stages read. -/

namespace Sys2Proof.Machine

variable {s t : State}

/-- The threshold an INGEST leaves: taken anew if it searched, else as it was (10_state.md R24). -/
theorem ingest_thr (v : Sample) (s : State) :
    (ingest v s).1.thr =
      if s.configured = true ∧ s.cd = 0#5 then (setThreshold (pushSample v s)).thr else s.thr := by
  have hthr : (searched v s).thr = (setThreshold (pushSample v s)).thr := rfl
  rw [ingest_fst, outcomeOf]
  split_ifs <;> simp_all [stateAfter, candidate]

/-- A candidate's computed and received CRC and its `PKT` depend on the bits of the window and on the free values. -/
theorem candidate_congr (v : Sample) (hf : s.freeIdx = t.freeIdx)
    (hb : ∀ k, bitAt (searched v s) k = bitAt (searched v t) k) :
    (candidate v s).calcCrc = (candidate v t).calcCrc ∧ (candidate v s).rxCrc = (candidate v t).rxCrc ∧
    (candidate v s).pkt = (candidate v t).pkt := by
  have hcand : processCandidate (assembleAddress (searched v t)) = _ :=
    processCandidate_congr (s := assembleAddress (searched v s)) hb hf
  simp [candidate, hcand]

/-- What decides the outcome of an INGEST: `configured`, `cd`, the bits of the window, the free values. -/
theorem outcomeOf_congr (v : Sample) (hc : s.configured = t.configured) (hcd : s.cd = t.cd)
    (hf : s.freeIdx = t.freeIdx) (hb : ∀ k, bitAt (searched v s) k = bitAt (searched v t) k) :
    outcomeOf v s = outcomeOf v t := by
  have hpre : preOk (searched v s) = preOk (searched v t) := by
    have htrans : (searched v s).trans = (searched v t).trans := transitions_congr hb
    rw [preOk, preOk, htrans]
  have haa : aaOk (assembleAddress (searched v s)) = aaOk (assembleAddress (searched v t)) := by
    rw [aaOk, aaOk, assembleAddress_aa, assembleAddress_aa, accessAddress_congr hb]
  have hcrc : crcOk (candidate v s) = crcOk (candidate v t) := by
    obtain ⟨hcalc, hrx, -⟩ := candidate_congr v hf hb
    rw [crcOk, crcOk, hcalc, hrx]
  rw [outcomeOf, outcomeOf, hc, hcd, hpre, haa, hcrc]

/-- Settles O26: the threshold, and with it every bit of the window, is taken from the ring before it is read, and a
candidate overwrites what it reads. -/
theorem workingRegistersAreNotReadAcrossIngests : Obligations.WorkingRegistersAreNotReadAcrossIngests := by
  intro s s' v h
  refine ⟨_, _, rfl, rfl, ?_⟩
  have hparams : s.params = s'.params := by rw [h]
  have hconf : s.configured = s'.configured := by rw [h]
  have hwp : s.wp = s'.wp := by rw [h]
  have hcd : s.cd = s'.cd := by rw [h]
  have hring : s.ring = s'.ring := by rw [h]
  have houtq : s.outq = s'.outq := by rw [h]
  have hfree : s.freeIdx = s'.freeIdx := by rw [h]
  have hthr : (setThreshold (pushSample v s)).thr = (setThreshold (pushSample v s')).thr := by
    simp [thresholdSum, memRead, hparams, hwp, hring]
  have hb : ∀ k, bitAt (searched v s) k = bitAt (searched v s') k := by
    refine bitAt_congr (sampleAt_congr ?_ ?_ ?_) hthr <;> simp [searched, hparams, hwp, hring]
  obtain ⟨-, -, hpkt⟩ := candidate_congr v hfree hb
  have hleft : ∀ o, (stateAfter v s o).wp = (stateAfter v s' o).wp ∧ (stateAfter v s o).cd = (stateAfter v s' o).cd ∧
      (stateAfter v s o).ring = (stateAfter v s' o).ring := by
    rintro ((_ | _ | _ | _) | _ | _) <;> simp [stateAfter, candidate, searched, hparams, hwp, hcd, hring]
  obtain ⟨hwp', hcd', hring'⟩ := hleft (outcomeOf v s)
  rw [ingest_thr, ingest_thr, ingest_configured, ingest_configured, ingest_fst, ingest_fst,
    ← outcomeOf_congr v hconf hcd hfree hb]
  refine ⟨hconf, hwp', hcd', hring', ?_, fun hc hz => ?_⟩
  · rw [stateAfter_outq, stateAfter_outq, houtq, hparams, hpkt]
  · rw [if_pos ⟨hc, hz⟩, if_pos ⟨hconf ▸ hc, hcd ▸ hz⟩, hthr]

end Sys2Proof.Machine
end

section
/-! States whose windows read alike, wherever the ring's contents lie (10_state.md R22). -/

namespace Sys2Proof.Machine

variable {s t : State}

/-- RB.PUSH moves the window on by one sample and puts the new sample at its head (20_memory.md R51, R120). -/
theorem sampleAt_pushSample (v : Sample) (s : State) (k : Nat) :
    sampleAt (pushSample v s) k = if s.params.rbSize ∣ k then v.toInt else sampleAt s (k + 1) := by
  have hslot : (s.wp + 1 + k) % s.params.rbSize = (s.wp + 1) % s.params.rbSize ↔ s.params.rbSize ∣ k :=
    Nat.add_modEq_left_iff
  rw [sampleAt, pushSample_params, pushSample_wp_eq, pushSample_read, Nat.mod_add_mod, apply_ite BitVec.toInt]
  simp only [hslot, sampleAt, Nat.add_right_comm s.wp k 1, ← Nat.add_assoc]

/-- A sample j sample times old stands at the offset N - j of the window (20_memory.md R54). -/
theorem memRead_sub (s : State) {j : Nat} (hj : j ≤ s.params.rbSize) :
    (memRead s ((s.wp : Int) - j)).toInt = sampleAt s (s.params.rbSize - j) := by
  have hslot : slotOf s.params ((s.wp : Int) - j) = (s.wp + (s.params.rbSize - j)) % s.params.rbSize := by
    rw [← slotOf_natCast_add, slotOf, slotOf, Nat.cast_sub hj, ← add_sub_assoc, add_sub_right_comm, Int.add_emod_right]
  rw [memRead, hslot, sampleAt]

/-- The threshold is taken from the window (42_slicer.md R130), so states whose windows read alike have the same. -/
theorem thresholdSum_congr (hN : s.params.rbSize = t.params.rbSize) (hl : thrWindow ≤ s.params.rbSize)
    (hs : ∀ k, sampleAt s k = sampleAt t k) : thresholdSum s = thresholdSum t := by
  refine List.foldl_ext _ _ _ fun sum j hj => ?_
  have hj : j ≤ s.params.rbSize := (List.mem_range.1 hj).le.trans hl
  rw [memRead_sub s hj, memRead_sub t (hN ▸ hj), hs, hN]

/-- `SameWindow`, with the three parts that may differ named. -/
theorem sameWindow_iff :
    SameWindow s t ↔ (∀ k, sampleAt s k = sampleAt t k) ∧
      ∃ wp ring init, t = { s with wp := wp, ring := ring, params := { s.params with rbInit := init } } := by
  refine and_congr_right fun _ => ⟨fun h => ⟨_, _, _, h⟩, ?_⟩
  rintro ⟨wp, ring, init, rfl⟩
  rfl

theorem sameWindow_pushSample (v : Sample) (h : SameWindow s t) : SameWindow (pushSample v s) (pushSample v t) := by
  obtain ⟨hs, wp, ring, init, rfl⟩ := sameWindow_iff.1 h
  refine ⟨fun k => ?_, rfl⟩
  rw [sampleAt_pushSample, sampleAt_pushSample, hs]

theorem sameWindow_tickCooldown (h : SameWindow s t) : SameWindow (tickCooldown s) (tickCooldown t) := by
  obtain ⟨hs, wp, ring, init, rfl⟩ := sameWindow_iff.1 h
  exact ⟨hs, rfl⟩

theorem sameWindow_setThreshold (hl : s.params.legal = true) (h : SameWindow s t) :
    SameWindow (setThreshold s) (setThreshold t) := by
  have hN : thrWindow ≤ s.params.rbSize := by
    have : 584 ≤ s.params.rbSize := by simpa [Params.legal] using hl
    unfold thrWindow
    omega
  have hsum : thresholdSum s = thresholdSum t := thresholdSum_congr (by rw [h.2]) hN h.1
  obtain ⟨hs, wp, ring, init, rfl⟩ := sameWindow_iff.1 h
  refine sameWindow_iff.2 ⟨hs, wp, ring, init, ?_⟩
  rw [setThreshold, ← hsum]
  rfl

theorem bitAt_of_sameWindow (h : SameWindow s t) (k : Nat) : bitAt s k = bitAt t k := by
  obtain ⟨hs, wp, ring, init, rfl⟩ := sameWindow_iff.1 h
  exact bitAt_congr hs rfl k

theorem sameWindow_countTransitions (h : SameWindow s t) : SameWindow (countTransitions s) (countTransitions t) := by
  have htrans := transitions_congr (bitAt_of_sameWindow h)
  obtain ⟨hs, wp, ring, init, rfl⟩ := sameWindow_iff.1 h
  refine sameWindow_iff.2 ⟨hs, wp, ring, init, ?_⟩
  rw [countTransitions, ← htrans]
  rfl

theorem sameWindow_assembleAddress (h : SameWindow s t) : SameWindow (assembleAddress s) (assembleAddress t) := by
  have haa := accessAddress_congr (bitAt_of_sameWindow h)
  obtain ⟨hs, wp, ring, init, rfl⟩ := sameWindow_iff.1 h
  refine sameWindow_iff.2 ⟨hs, wp, ring, init, ?_⟩
  rw [assembleAddress, ← haa]
  rfl

theorem sameWindow_processCandidate (h : SameWindow s t) : SameWindow (processCandidate s) (processCandidate t) := by
  have hcand := processCandidate_congr (bitAt_of_sameWindow h) (by rw [h.2])
  have hframe : ∀ u k, sampleAt (processCandidate u) k = sampleAt u k := fun u =>
    sampleAt_congr (by simp) (by simp) (by simp)
  obtain ⟨hs, wp, ring, init, rfl⟩ := sameWindow_iff.1 h
  refine sameWindow_iff.2 ⟨fun k => ?_, wp, ring, init, ?_⟩
  · rw [hframe, hframe, hs]
  · rw [hcand]
    simp

theorem sameWindow_armCooldown (h : SameWindow s t) : SameWindow (armCooldown s) (armCooldown t) := by
  obtain ⟨hs, wp, ring, init, rfl⟩ := sameWindow_iff.1 h
  exact ⟨hs, rfl⟩

theorem sameWindow_emitRecord (m : Mac) (h : SameWindow s t) : SameWindow (emitRecord m s) (emitRecord m t) := by
  obtain ⟨hs, wp, ring, init, rfl⟩ := sameWindow_iff.1 h
  exact ⟨hs, rfl⟩

theorem sameWindow_searched (v : Sample) (hl : s.params.legal = true) (h : SameWindow s t) :
    SameWindow (searched v s) (searched v t) :=
  sameWindow_countTransitions (sameWindow_setThreshold hl (sameWindow_tickCooldown (sameWindow_pushSample v h)))

theorem sameWindow_candidate (v : Sample) (hl : s.params.legal = true) (h : SameWindow s t) :
    SameWindow (candidate v s) (candidate v t) :=
  sameWindow_armCooldown (sameWindow_processCandidate (sameWindow_assembleAddress (sameWindow_searched v hl h)))

theorem sameWindow_stateAfter (v : Sample) (hl : s.params.legal = true) (h : SameWindow s t) (o : IngestOutcome) :
    SameWindow (stateAfter v s o) (stateAfter v t o) := by
  have hcand := sameWindow_candidate v hl h
  rcases o with (_ | _ | _ | _) | _ | _
  case reject.notConfigured => exact h
  case reject.noPreamble => exact sameWindow_searched v hl h
  case reject.badAA => exact sameWindow_assembleAddress (sameWindow_searched v hl h)
  case reject.badCrc => exact hcand
  case cool => exact sameWindow_tickCooldown (sameWindow_pushSample v h)
  case accept =>
    have hpkt : (candidate v s).pkt = (candidate v t).pkt := by
      rw [hcand.2]
    rw [stateAfter, stateAfter, hpkt]
    exact sameWindow_emitRecord _ hcand

/-- Settles O25: the window, and so the threshold and every bit, reads alike before and after the push; each stage then
keeps the relation. -/
theorem rotationIsInvisible : Obligations.RotationIsInvisible := by
  intro s s' v hl h
  refine ⟨_, _, rfl, rfl, ?_⟩
  have hout : outcomeOf v s = outcomeOf v s' := by
    have hb := bitAt_of_sameWindow (sameWindow_searched v hl h)
    obtain ⟨-, wp, ring, init, rfl⟩ := sameWindow_iff.1 h
    exact outcomeOf_congr v rfl rfl rfl hb
  rw [ingest_fst, ingest_fst, ← hout]
  exact sameWindow_stateAfter v hl h _

end Sys2Proof.Machine
end

section
/-! The step with nothing to take, and the ring too short to run (20_memory.md R53). -/

namespace Sys2Proof.Machine

variable {s : State}

theorem legal_iff (p : Params) : p.legal = true ↔ 584 ≤ p.rbSize := decide_eq_true_iff

/-- With nothing on the port the block waits (log 6). -/
theorem step_of_port_nil (hl : s.params.legal = true) (hp : s.port = []) : step s = .next s := by
  rw [step, if_pos hl, takeWord, hp]
  rfl

/-- A ring the spec does not allow is refused before the port is looked at (20_memory.md R53). -/
theorem step_of_not_legal (hl : ¬ s.params.legal = true) : step s = .refused .illegalParameters := by
  rw [step, if_neg hl]

/-- Settles O8: the parameters are tested first, and then the port. -/
theorem idleAndIllegalRing : Obligations.IdleAndIllegalRing := fun s =>
  ⟨fun hN hp => step_of_port_nil ((legal_iff s.params).2 hN) hp,
    fun hN => step_of_not_legal (mt (legal_iff s.params).1 (Nat.not_le.2 hN))⟩

end Sys2Proof.Machine
end

section
/-! The window along a run of INGESTs (20_memory.md R51, R52). -/

namespace Sys2Proof.Machine

variable {s : State}

/-- Whatever its outcome, an INGEST of a configured block moves the ring and `wp` as RB.PUSH does: no later stage writes
them (40_commands_sequencer.md R104). -/
theorem ingest_ring_wp (v : Sample) (hc : s.configured = true) :
    (ingest v s).1.ring = (pushSample v s).ring ∧ (ingest v s).1.wp = (pushSample v s).wp := by
  have hconf : outcomeOf v s ≠ .reject .notConfigured := by
    rw [outcomeOf]
    split_ifs <;> simp_all
  rw [ingest_fst]
  rcases ho : outcomeOf v s with (_ | _ | _ | _) | _ | _
  case reject.notConfigured => exact absurd ho hconf
  all_goals simp [stateAfter, candidate, searched]

theorem ingest_wp (v : Sample) (hc : s.configured = true) :
    (ingest v s).1.wp = (s.wp + 1) % s.params.rbSize := by
  rw [(ingest_ring_wp v hc).2, pushSample_wp_eq]

/-- An INGEST moves the window on by one sample (20_memory.md R52). -/
theorem sampleAt_ingest (v : Sample) (hc : s.configured = true) (k : Nat) :
    sampleAt (ingest v s).1 k = if s.params.rbSize ∣ k then v.toInt else sampleAt s (k + 1) := by
  obtain ⟨hring, hwp⟩ := ingest_ring_wp v hc
  rw [sampleAt_congr (t := pushSample v s) (ingest_params v s) hring hwp, sampleAt_pushSample]

/-- The ring is circular: the offset N is the offset 0 (20_memory.md R51). -/
theorem sampleAt_rbSize (s : State) : sampleAt s s.params.rbSize = sampleAt s 0 := by
  rw [sampleAt, sampleAt, Nat.add_mod_right, Nat.add_zero]

theorem ingestAll_cons (v : Sample) (vs : List Sample) (s : State) :
    ingestAll (v :: vs) s = ingestAll vs (ingest v s).1 := rfl

@[simp] theorem ingestAll_params (vs : List Sample) (s : State) : (ingestAll vs s).params = s.params := by
  induction vs generalizing s with
  | nil => rfl
  | cons v vs ih => rw [ingestAll_cons, ih, ingest_params]

/-- `wp` advances by one modulo N with each sample; only a run that is not empty brings a `wp` from N upward below N
(41_ingest_cooldown.md R120). -/
theorem ingestAll_cons_wp (v : Sample) (vs : List Sample) (hc : s.configured = true) :
    (ingestAll (v :: vs) s).wp = (s.wp + (v :: vs).length) % s.params.rbSize := by
  induction vs generalizing v s with
  | nil => exact ingest_wp v hc
  | cons w vs ih =>
    rw [ingestAll_cons, ih w (by rwa [ingest_configured]), ingest_wp v hc, ingest_params, Nat.mod_add_mod,
      Nat.add_assoc, Nat.add_comm 1, ← List.length_cons]

/-- The window after a run of T INGESTs, with the newest sample seen at the offset N: a sample of the run where T + k
passes N, and otherwise what stood T offsets further on (20_memory.md R52). -/
theorem sampleAt_ingestAll (vs : List Sample) (hc : s.configured = true) {k : Nat} (hk : 0 < k)
    (hN : k ≤ s.params.rbSize) :
    sampleAt (ingestAll vs s) k =
      if s.params.rbSize < vs.length + k then (vs.getD (vs.length + k - s.params.rbSize - 1) 0#16).toInt
      else sampleAt s (vs.length + k) := by
  induction vs generalizing s with
  | nil => simp [ingestAll, Nat.not_lt.2 hN]
  | cons v vs ih =>
    rw [ingestAll_cons, ih (by rwa [ingest_configured]) (by rwa [ingest_params]), ingest_params, sampleAt_ingest v hc,
      List.length_cons, Nat.add_right_comm vs.length 1 k]
    obtain hlt | heq | hgt := Nat.lt_trichotomy (vs.length + k) s.params.rbSize
    · have hndvd : ¬ s.params.rbSize ∣ vs.length + k := Nat.not_dvd_of_pos_of_lt (by omega) hlt
      rw [if_neg (by omega), if_neg hndvd, if_neg (by omega)]
    · simp [heq]
    · obtain ⟨j, hj⟩ := Nat.exists_eq_add_of_lt hgt
      have hold : s.params.rbSize + j + 1 - s.params.rbSize - 1 = j := by omega
      have hnew : s.params.rbSize + j + 1 + 1 - s.params.rbSize - 1 = j + 1 := by omega
      rw [if_pos hgt, if_pos (by omega), hj, hold, hnew, List.getD_cons_succ]

/-- Settles O23: the window after the run, offset 0 taken as the offset N; what is left of the old window stands in the
slot it stood in before. -/
theorem windowInTime : Obligations.WindowInTime := by
  intro s vs k _ hc hT hk
  have hwp : (ingestAll vs s).wp = (s.wp + vs.length) % s.params.rbSize := by
    obtain ⟨v, vs, rfl⟩ := List.exists_cons_of_length_pos hT
    exact ingestAll_cons_wp v vs hc
  refine ⟨hwp, ?_⟩
  rcases Nat.eq_zero_or_pos k with rfl | hpos
  · have h0 := sampleAt_rbSize (ingestAll vs s)
    rw [ingestAll_params] at h0
    rw [← h0, sampleAt_ingestAll vs hc hk le_rfl, if_pos (by omega), if_pos rfl, Nat.add_sub_cancel]
  · have hslot : sampleAt s (vs.length + k) =
        (s.ring.read s.params (((ingestAll vs s).wp + k) % s.params.rbSize)).toInt := by
      rw [sampleAt, hwp, Nat.mod_add_mod, Nat.add_assoc]
    rw [if_neg hpos.ne', ← hslot, sampleAt_ingestAll vs hc hpos hk.le]

end Sys2Proof.Machine
end

section
/-! The fields of the port words (30_encoding.md R76, R84): what the decoder reads from a field that the encoder wrote,
and back. -/

namespace Sys2Proof

@[simp] theorem commandOp_append (op : BitVec 2) (imm : BitVec 16) : commandOp (op ++ imm) = op :=
  BitVec.extractLsb'_append_eq_left

@[simp] theorem commandImm_append (op : BitVec 2) (imm : BitVec 16) : commandImm (op ++ imm) = imm :=
  BitVec.extractLsb'_append_eq_right

/-- Format C by its two fields (30_encoding.md R76, R86). -/
theorem decode_command_append (op : BitVec 2) (imm : BitVec 16) : decode (.command (op ++ imm)) =
    if op = 0b00#2 then .ok .reset
    else if op = 0b01#2 then .ok (.ingest imm)
    else if op = 0b10#2 then .ok .configure
    else .reject .reservedCommand := by
  rw [decode, decodeCommand, commandOp_append, commandImm_append]

@[simp] theorem decodeBuffer_encodeBuffer (data : Buffer) : decodeBuffer (encodeBuffer data) = data := by
  cases data <;> rfl

@[simp] theorem encodeBuffer_decodeBuffer (b : BitVec 1) : encodeBuffer (decodeBuffer b) = b := by
  revert b
  decide

/-- An operand written from bit 0 of a wider field is what stands in its low bits. -/
theorem extractLsb'_setWidth_self {w v : Nat} (x : BitVec w) (h : w ≤ v) : (x.setWidth v).extractLsb' 0 w = x := by
  rw [BitVec.extractLsb'_setWidth_of_le (by omega), BitVec.extractLsb'_eq_self]

/-- Settles O3: op alone chooses the command. -/
theorem commandWordFields : Obligations.CommandWordFields :=
  fun imm => ⟨decode_command_append _ imm, decode_command_append _ imm, decode_command_append _ imm,
    decode_command_append _ imm⟩

/-- Settles O4: each word is evaluated. -/
theorem specWordsDecode : Obligations.SpecWordsDecode := by
  unfold Obligations.SpecWordsDecode
  decide

end Sys2Proof
end

section
/-! Decoding an encoding (30_encoding.md R76, R84). Operands packed by appending have a lemma each; there the width of
an append stays the sum it is written as, which is what the library's lemmas about reading one part of it match. -/

namespace Sys2Proof

theorem decode_encode_dwRun (data : Buffer) {n : Nat} (hn : n < 256) (ch : Byte) :
    decode (encode (.dwRun data n ch)) = .ok (.dwRun data n ch) := by
  simp [-Nat.reduceAdd, -BitVec.extractLsb'_toNat, encode, decode, decodeUnit, BitVec.extractLsb'_setWidth_of_le,
    BitVec.extractLsb'_append_eq_of_add_le, BitVec.extractLsb'_append_eq_of_le, BitVec.extractLsb'_eq_self,
    Nat.mod_eq_of_lt hn]

theorem decode_encode_crcRun {n : Nat} (hn : n < 256) (seed : BitVec 24) :
    decode (encode (.crcRun n seed)) = .ok (.crcRun n seed) := by
  simp [-Nat.reduceAdd, -BitVec.extractLsb'_toNat, encode, decode, decodeUnit, BitVec.extractLsb'_setWidth_of_le,
    BitVec.extractLsb'_append_eq_left, BitVec.extractLsb'_append_eq_right, Nat.mod_eq_of_lt hn]

theorem decode_encode_feEmit (m : Mac) : decode (encode (.feEmit m)) = .ok (.feEmit m) := by
  simp [-Nat.reduceAdd, encode, decode, decodeUnit, BitVec.extractLsb'_append_eq_of_add_le,
    BitVec.extractLsb'_append_eq_of_le, BitVec.extractLsb'_eq_self]

/-- Settles O1: each operand is read from the bits it was written to, a number because it fits them. -/
theorem decodeOfEncodeIsIdentity : Obligations.DecodeOfEncodeIsIdentity := by
  intro i hi
  cases i with
  | reset | configure | cdTick | slThresh | pdDetect | dwStep | aaAsm | aaCmp | ldLen | crcRxasm | crcCmp | feAddr
    | cdArm => rfl
  | ingest v => exact decode_command_append 0b01#2 v
  | rbPush v => exact congrArg (Decoded.ok <| .rbPush ·) (extractLsb'_setWidth_self v (by decide))
  | brRev x => exact congrArg (Decoded.ok <| .brRev ·) (extractLsb'_setWidth_self x (by decide))
  | dwSeed ch => exact congrArg (Decoded.ok <| .dwSeed ·) (extractLsb'_setWidth_self ch (by decide))
  | crcInit seed => exact congrArg (Decoded.ok <| .crcInit ·) (extractLsb'_setWidth_self seed (by decide))
  | slBit k | fxByte b | fxSpan n =>
    have hfits := of_decide_eq_true hi
    simp [encode, decode, decodeUnit, Nat.mod_eq_of_lt hfits]
  | dwRun data n ch => exact decode_encode_dwRun data (of_decide_eq_true hi) ch
  | crcBit d => cases d <;> rfl
  | crcRun n seed => exact decode_encode_crcRun (of_decide_eq_true hi) seed
  | feEmit m => exact decode_encode_feEmit m

end Sys2Proof
end

section
/-! Encoding what was decoded (30_encoding.md R76, R84, R86): the word's fields, cut to the bits the operation reads. -/

namespace Sys2Proof

/-- The `n` low bits of a field and 0 above them. -/
def lowBits {w : Nat} (n : Nat) (x : BitVec w) : BitVec w := (x.extractLsb' 0 n).setWidth w

theorem getLsbD_lowBits {w b : Nat} (n : Nat) (x : BitVec w) (hb : b < w) :
    (lowBits n x).getLsbD b = (decide (b < n) && x.getLsbD b) := by
  simp only [lowBits, BitVec.getLsbD_setWidth, BitVec.getLsbD_extractLsb', Nat.zero_add, decide_eq_true hb,
    Bool.true_and]

theorem lowBits_zero {w : Nat} (x : BitVec w) : lowBits 0 x = 0#w := by
  rw [lowBits, BitVec.extractLsb'_eq_zero, BitVec.setWidth_zero]

theorem lowBits_self {w : Nat} (x : BitVec w) : lowBits w x = x := by
  rw [lowBits, BitVec.extractLsb'_eq_self, BitVec.setWidth_eq]

/-! The operand fields of the unit operations, as the encoder writes them back. -/

theorem operand_field (n : Nat) (x : BitVec 48) : (x.extractLsb' 0 n).setWidth 48 = lowBits n x := rfl

theorem operand_number (n : Nat) (x : BitVec 48) :
    (BitVec.ofNat n (x.extractLsb' 0 n).toNat).setWidth 48 = lowBits n x := by
  rw [BitVec.ofNat_toNat, BitVec.setWidth_eq, operand_field]

theorem ofBool_getLsbD {w : Nat} (x : BitVec w) (b : Nat) : BitVec.ofBool (x.getLsbD b) = x.extractLsb' b 1 := by
  rw [BitVec.getLsbD_eq_extractLsb']
  generalize x.extractLsb' b 1 = y
  revert y
  decide

theorem operand_crcBit (x : BitVec 48) : (BitVec.ofBool (x.getLsbD 0)).setWidth 48 = lowBits 1 x := by
  rw [ofBool_getLsbD, operand_field]

theorem operand_dwRun (x : BitVec 48) :
    (encodeBuffer (decodeBuffer (x.extractLsb' 16 1)) ++ BitVec.ofNat 8 (x.extractLsb' 8 8).toNat ++
      x.extractLsb' 0 8).setWidth 48 = lowBits 17 x := by
  simp only [encodeBuffer_decodeBuffer, BitVec.ofNat_toNat, BitVec.setWidth_eq,
    BitVec.extractLsb'_append_extractLsb'_eq_extractLsb', operand_field]

theorem operand_crcRun (x : BitVec 48) :
    (BitVec.ofNat 8 (x.extractLsb' 24 8).toNat ++ x.extractLsb' 0 24).setWidth 48 = lowBits 32 x := by
  simp only [BitVec.ofNat_toNat, BitVec.setWidth_eq, BitVec.extractLsb'_append_extractLsb'_eq_extractLsb',
    operand_field]

theorem operand_feEmit (x : BitVec 48) :
    x.extractLsb' 40 8 ++ x.extractLsb' 32 8 ++ x.extractLsb' 24 8 ++ x.extractLsb' 16 8 ++ x.extractLsb' 8 8 ++
      x.extractLsb' 0 8 = lowBits 48 x := by
  simp only [BitVec.extractLsb'_append_extractLsb'_eq_extractLsb', BitVec.extractLsb'_eq_self, lowBits_self]

/-- An operand read as a number from an n-bit field is below 2 ^ n; no other operand has a range. -/
theorem wellFormed_of_decode {w : PortWord} {i : Instr} (h : decode w = .ok i) : i.wellFormed = true := by
  cases w with
  | command c => obtain rfl | ⟨v, rfl⟩ | rfl := Machine.command_of_decode_ok h <;> rfl
  | unitOp id x =>
    simp only [decode, decodeUnit] at h
    split at h <;> cases h <;> simp [Instr.wellFormed, Nat.mod_lt]

/-- RESET and CONFIGURE keep nothing of imm, INGEST all of it (30_encoding.md R76, R86). -/
theorem encode_of_decodeCommand {c : BitVec 18} {i : Instr} (h : decodeCommand c = .ok i) :
    encode i = .command (commandOp c ++ lowBits i.operandBits (commandImm c)) := by
  unfold decodeCommand at h
  split_ifs at h with h0 h1 h2 <;> cases h
  · rw [h0, Instr.operandBits, lowBits_zero, encode]
  · rw [h1, Instr.operandBits, lowBits_self, encode]
  · rw [h2, Instr.operandBits, lowBits_zero, encode]

/-- The identifier chooses the operation (30_encoding.md R84); its operands are written back where they were read. -/
theorem encode_of_decodeUnit {id : BitVec 5} {x : BitVec 48} {i : Instr} (h : decodeUnit id x = .ok i) :
    encode i = .unitOp id (lowBits i.operandBits x) := by
  unfold decodeUnit at h
  split at h <;> rename_i hid <;> cases h
  all_goals
    refine congrArg₂ PortWord.unitOp (BitVec.eq_of_toNat_eq hid.symm) ?_
    simp only [Instr.operandBits, lowBits_zero, operand_field, operand_number, operand_crcBit, operand_dwRun,
      operand_crcRun, operand_feEmit]

/-- Settles O2: the encoding is the word with its operand field cut to the bits the operation reads. -/
theorem decodedWordIsTheEncoding : Obligations.DecodedWordIsTheEncoding := by
  intro w i h
  refine ⟨wellFormed_of_decode h, ?_⟩
  cases w with
  | command c =>
    rw [encode_of_decodeCommand h]
    refine ⟨commandOp_append _ _, fun b hb => ?_⟩
    rw [commandImm_append, getLsbD_lowBits _ _ hb]
  | unitOp id x =>
    rw [encode_of_decodeUnit h]
    exact ⟨rfl, fun b hb => getLsbD_lowBits _ _ hb⟩

end Sys2Proof
end

section
/-! A step with a word on the port (40_commands_sequencer.md R100). -/

namespace Sys2Proof.Machine

theorem step_of_port_cons {s : State} {w : PortWord} {ws : List PortWord} (hl : s.params.legal = true)
    (hp : s.port = w :: ws) : step s = runDecoded (decode w) { s with port := ws } := by
  rw [step, if_pos hl, takeWord, hp]

/-- Settles O7: the step is what the decoder's reject by name does. -/
theorem reservedCommandIsIgnored : Obligations.ReservedCommandIsIgnored := by
  intro s imm ws hl hp
  obtain ⟨-, -, -, hreserved⟩ := commandWordFields imm
  rw [step_of_port_cons hl hp, hreserved, runDecoded, ignoreWord]

end Sys2Proof.Machine
end

section
/-! A step runs the operation its word decodes to (40_commands_sequencer.md R100). -/

namespace Sys2Proof.Machine

/-- Settles O5: the step takes the word and runs what the decoder answers. -/
theorem stepRunsTheDecodedOperation : Obligations.StepRunsTheDecodedOperation := by
  intro s w ws i hl hp hd
  rw [step_of_port_cons hl hp, hd, runDecoded]

theorem decode_of_decodeTableWord {nbits w : Nat} {i : Instr} (h : decodeTableWord nbits w = some i) :
    decode (tablePortWord nbits w) = .ok i := by
  unfold decodeTableWord at h
  split_ifs at h
  split at h
  · next hd =>
    cases h
    exact hd
  · cases h

/-- Settles O6: the step takes the word that was placed, and what is left is the state itself. -/
theorem placedTableWordRuns : Obligations.PlacedTableWordRuns := fun s nbits w i hl hw =>
  stepRunsTheDecodedOperation (s.withFetchWord nbits w) (tablePortWord nbits w) s.port i hl rfl
    (decode_of_decodeTableWord hw)

end Sys2Proof.Machine
end

section
/-! EXECUTE (40_commands_sequencer.md R106): INGEST does not read the port, so each word of the buffer waits for its step. -/

namespace Sys2Proof.Machine

/-- The state with other words on the port. -/
def withPort (ws : List PortWord) (s : State) : State := { s with port := ws }

theorem searched_withPort (v : Sample) (ws : List PortWord) (s : State) :
    searched v (withPort ws s) = withPort ws (searched v s) := rfl

theorem processCandidate_withPort (ws : List PortWord) (s : State) :
    processCandidate (withPort ws s) = withPort ws (processCandidate s) := by
  rw [processCandidate_congr (s := s) (t := withPort ws s) (fun _ => rfl) rfl]
  apply state_ext <;> simp [withPort]

theorem candidate_withPort (v : Sample) (ws : List PortWord) (s : State) :
    candidate v (withPort ws s) = withPort ws (candidate v s) := by
  have haddr : assembleAddress (withPort ws (searched v s)) = withPort ws (assembleAddress (searched v s)) := rfl
  rw [candidate, candidate, searched_withPort, haddr, processCandidate_withPort]
  rfl

/-- No stage of an INGEST reads the port. -/
theorem ingest_withPort (v : Sample) (ws : List PortWord) (s : State) :
    (ingest v (withPort ws s)).1 = withPort ws (ingest v s).1 := by
  have hout : outcomeOf v (withPort ws s) = outcomeOf v s := outcomeOf_congr v rfl rfl rfl fun _ => rfl
  rw [ingest_fst, ingest_fst, hout]
  rcases outcomeOf v s with (_ | _ | _ | _) | _ | _
  case reject.badCrc => exact candidate_withPort v ws s
  case accept =>
    rw [stateAfter, candidate_withPort]
    rfl
  all_goals rfl

theorem run_succ_of_step {M : Host.Core} {s t : M.State} (k : Nat) (h : M.step s = .next t) :
    M.run (k + 1) s = M.run k t := by
  rw [Host.Core.run, h]

/-- The step that takes the first INGEST word of the port. -/
theorem step_executeWords_cons {s : State} (v : Sample) (vs : List Sample) (ws : List PortWord)
    (hl : s.params.legal = true) :
    step (withPort (executeWords (v :: vs) ++ ws) s) = .next (withPort (executeWords vs ++ ws) (ingest v s).1) := by
  rw [← ingest_withPort]
  exact stepRunsTheDecodedOperation (withPort (executeWords (v :: vs) ++ ws) s) _ _ _ hl rfl
    (decodeOfEncodeIsIdentity (.ingest v) rfl)

/-- Settles O9: a step takes the first sample's word, and the later words wait on the port for the steps after it. -/
theorem executeIsTheFoldOfIngest : Obligations.ExecuteIsTheFoldOfIngest := by
  intro s vs ws hl
  show Sys2Proof.core.run vs.length (withPort (executeWords vs ++ ws) s) = .next (ingestAll vs (withPort ws s))
  induction vs generalizing s with
  | nil => rfl
  | cons v vs ih =>
    rw [ingestAll_cons, ingest_withPort, ← ih (ingest v s).1 (by rwa [ingest_params])]
    exact run_succ_of_step vs.length (step_executeWords_cons v vs ws hl)

end Sys2Proof.Machine
end

section
/-! RESET (40_commands_sequencer.md R101) and CONFIGURE (R102). -/

namespace Sys2Proof.Machine

/-- Settles O10: what RESET leaves of these registers depends on the parameters alone. -/
theorem resetRestoresTheResetState : Obligations.ResetRestoresTheResetState := by
  intro s
  obtain ⟨hconf, hwp, hcd, hthr, hring, houtq, -, -⟩ := resetState_spec s
  refine ⟨resetState s, rfl, hconf, hwp, hcd, hthr, fun i => ?_, houtq, fun s' _ => ⟨resetState s', rfl, ?_⟩⟩
  · rw [hring, Memory.read]
  · obtain ⟨hconf', hwp', hcd', hthr', hring', houtq', -, -⟩ := resetState_spec s'
    exact ⟨hconf'.trans hconf.symm, hwp'.trans hwp.symm, hcd'.trans hcd.symm, hthr'.trans hthr.symm,
      hring'.trans hring.symm, houtq'.trans houtq.symm⟩

/-- Settles O11: writing the flag the value it holds changes nothing. -/
theorem configureSetsOnlyTheFlag : Obligations.ConfigureSetsOnlyTheFlag := by
  refine fun s => ⟨rfl, fun hc => ?_⟩
  show Host.Outcome.next { s with configured := true } = _
  rw [← hc]

end Sys2Proof.Machine
end

section
/-! INGEST while the cooldown runs (40_commands_sequencer.md R107, 41_ingest_cooldown.md R121). -/

namespace Sys2Proof.Machine

/-- The ring and `wp` of a configured block after an INGEST are those after the push (41_ingest_cooldown.md R120). -/
theorem pushed_ingest (v : Sample) {s : State} (hc : s.configured = true) : Pushed v s (ingest v s).1 := by
  obtain ⟨hring, hwp⟩ := ingest_ring_wp v hc
  rw [Pushed, hring, hwp, pushSample_wp_eq]
  refine ⟨rfl, ?_, fun i hi => ?_⟩
  · rw [pushSample_read, if_pos rfl]
  · rw [pushSample_read, if_neg hi]

theorem outcomeOf_of_cooling (v : Sample) {s : State} (hc : s.configured = true) (hcd : s.cd ≠ 0#5) :
    outcomeOf v s = .cool := by
  rw [outcomeOf, if_neg (by simp [hc]), if_pos hcd]

/-- Settles O13: the outcome is cool, and it leaves the push and the tick. -/
theorem ingestWhileCoolingDown : Obligations.IngestWhileCoolingDown := by
  intro s v hc hcd
  have ht : (ingest v s).1 = tickCooldown (pushSample v s) := by rw [ingest_fst, outcomeOf_of_cooling v hc hcd]; rfl
  have hpos : s.cd.toNat ≠ 0 := fun h => hcd (BitVec.eq_of_toNat_eq h)
  refine ⟨_, rfl, pushed_ingest v hc, ?_, ?_⟩
  · rw [ht, tickCooldown_toNat, pushSample_cd]
    omega
  · rw [ht]
    rfl

end Sys2Proof.Machine
end

section
/-! The slicer against the mean of the window (42_slicer.md R130, R131, R134). -/

namespace Sys2Proof.Machine

variable {s t : State}

theorem thresholdSum_eq_newestSum (s : State) : thresholdSum s = newestSum s := by
  simp [thresholdSum, newestSum, newestSample, thrWindow, memRead, slotOf, List.range, List.range.loop]

/-- The mean of eight 16-bit samples fits 16 bits. -/
theorem newestSum_bounds (s : State) : -(8 * 2 ^ 15) ≤ newestSum s ∧ newestSum s < 8 * 2 ^ 15 := by
  have hlo : ∀ j, -(2 ^ 15) ≤ newestSample s j := fun _ => BitVec.le_toInt _
  have hhi : ∀ j, newestSample s j < 2 ^ 15 := fun _ => BitVec.toInt_lt
  unfold newestSum
  exact ⟨by linarith only [hlo 0, hlo 1, hlo 2, hlo 3, hlo 4, hlo 5, hlo 6, hlo 7],
    by linarith only [hhi 0, hhi 1, hhi 2, hhi 3, hhi 4, hhi 5, hhi 6, hhi 7]⟩

/-- SL.THRESH takes the floor of the mean (42_slicer.md R131). -/
theorem isFloorMean_setThreshold (s : State) : IsFloorMean (setThreshold s).thr.toInt (newestSum s) := by
  have hb := newestSum_bounds s
  have hthr : (setThreshold s).thr.toInt = newestSum s / 8 := by
    rw [setThreshold_thr, thresholdSum_eq_newestSum]
    exact BitVec.toInt_ofInt_eq_self (by decide) (by omega) (by omega)
  rw [IsFloorMean, hthr]
  omega

/-- The floor loses no bit (42_slicer.md R134). -/
theorem bitAt_eq_windowBit (h : IsFloorMean s.thr.toInt (newestSum s)) (k : Nat) : bitAt s k = windowBit s k := by
  obtain ⟨hle, hlt⟩ := h
  rw [bitAt_eq, windowBit, ← sampleAt, decide_eq_decide]
  omega

/-- Against the threshold SL.THRESH takes, the bits are those of the window. -/
theorem bitAt_setThreshold (s : State) : bitAt (setThreshold s) = windowBit s := by
  funext k
  exact bitAt_eq_windowBit (s := setThreshold s) (isFloorMean_setThreshold s) k

theorem newestSum_congr (hp : s.params = t.params) (hr : s.ring = t.ring) (hw : s.wp = t.wp) :
    newestSum s = newestSum t := by
  simp only [newestSum, newestSample, hp, hr, hw]

/-- The bits of the window are those of `params`, `ring` and `wp`, whatever the threshold. -/
theorem windowBit_congr (hp : s.params = t.params) (hr : s.ring = t.ring) (hw : s.wp = t.wp) :
    windowBit s = windowBit t := by
  funext k
  rw [windowBit, windowBit, sampleAt_congr hp hr hw, newestSum_congr hp hr hw]

end Sys2Proof.Machine
end

section
/-! The two tests of the search (43_preamble.md R140, 47_aa_filter_length.md R186), read off the bits of the window. -/

namespace Sys2Proof.Machine

/-- A counter that goes up by one at each element with a property has counted them. -/
theorem foldl_count {w : Nat} (p : Nat → Bool) (l : List Nat) (c : BitVec w) :
    l.foldl (fun t i => if p i then t + 1#w else t) c = c + BitVec.ofNat w (l.filter p).length := by
  induction l generalizing c with
  | nil => simp
  | cons i l ih =>
    rw [List.foldl_cons, ih]
    cases hi : p i <;> simp [hi, BitVec.ofNat_add, BitVec.add_assoc, BitVec.add_comm 1#w]

/-- PD.DETECT counts the transitions; 4 bits hold the count (43_preamble.md R140). -/
theorem transitions_toNat (s : State) : (transitions s).toNat = transitionCount (bitAt s) := by
  have hle : transitionCount (bitAt s) ≤ 8 := (List.length_filter_le _ _).trans_eq List.length_range
  have hcount : transitions s = BitVec.ofNat 4 (transitionCount (bitAt s)) :=
    (foldl_count _ _ _).trans (BitVec.zero_add _)
  rw [hcount, BitVec.toNat_ofNat, Nat.mod_eq_of_lt (by omega)]

theorem transitionCount_eq_eight_iff (bit : Nat → Bool) : transitionCount bit = 8 ↔ Alternates bit := by
  have hall := List.length_filter_eq_length_iff (p := fun i => bit i != bit (i + 1)) (l := List.range 8)
  rw [List.length_range] at hall
  simpa [Alternates, transitionCount] using hall

/-- The preamble test passes exactly on alternating bits (43_preamble.md R141). -/
theorem transitions_eq_eight_iff (s : State) : transitions s = 8#4 ↔ Alternates (bitAt s) := by
  rw [← transitionCount_eq_eight_iff, ← transitions_toNat, BitVec.toNat_inj.symm]
  rfl

/-- The address test passes exactly where offsets 8 to 39 carry the address (47_aa_filter_length.md R186). -/
theorem accessAddress_eq_advAA_iff (s : State) : accessAddress s = advAA ↔ CarriesAddress (bitAt s) := by
  rw [BitVec.eq_of_getLsbD_eq_iff]
  exact forall₂_congr fun n hn => by rw [accessAddress_getLsbD s n hn, advAA]

end Sys2Proof.Machine
end

section
/-! INGEST with preamble and address in the window: what it leaves, whatever the CRC (40_commands_sequencer.md R104). -/

namespace Sys2Proof.Machine

variable {s : State} {v : Sample}

/-- The search reads the window of the pushed sample. -/
theorem bitAt_searched (v : Sample) (s : State) : bitAt (searched v s) = windowBit (pushSample v s) :=
  bitAt_setThreshold (tickCooldown (pushSample v s))

theorem searched_trans_of_alternates (h : Alternates (windowBit (pushSample v s))) : (searched v s).trans = 8#4 := by
  rw [searched, countTransitions_trans, transitions_eq_eight_iff, bitAt_setThreshold]
  exact h

theorem searched_address_of_carries (h : CarriesAddress (windowBit (pushSample v s))) :
    accessAddress (searched v s) = advAA :=
  (accessAddress_eq_advAA_iff (searched v s)).2 (bitAt_searched v s ▸ h)

/-- Past the address test an INGEST is its candidate behind the gate of 48_crc24.md R206. -/
theorem ingest_of_match (hc : s.configured = true) (hcd : s.cd = 0#5)
    (hpre : Alternates (windowBit (pushSample v s))) (haa : CarriesAddress (windowBit (pushSample v s))) :
    ingest v s = gateRecord (deviceAddress (candidate v s).pkt) (candidate v s) := by
  have hp : preOk (searched v s) = true := beq_iff_eq.2 (searched_trans_of_alternates hpre)
  have ha : aaOk (assembleAddress (searched v s)) = true := beq_iff_eq.2 (searched_address_of_carries haa)
  rw [ingest_eq, outcomeOf, if_neg (by simp [hc]), if_neg (not_not.2 hcd), if_neg (by simp [hp]),
    if_neg (by simp [ha]), gateRecord]
  cases crcOk (candidate v s) <;> rfl

/-- The gate writes the queue and nothing else. -/
theorem ingest_of_match_frame (hc : s.configured = true) (hcd : s.cd = 0#5)
    (hpre : Alternates (windowBit (pushSample v s))) (haa : CarriesAddress (windowBit (pushSample v s))) :
    (ingest v s).1 = { candidate v s with outq := (ingest v s).1.outq } := by
  rw [ingest_of_match hc hcd hpre haa]
  exact gateRecord_frame _ _

/-- Settles O17: the gate of 48_crc24.md R206, behind CD.ARM. -/
theorem ingestDecidesByTheCrc : Obligations.IngestDecidesByTheCrc := by
  intro s v hc hcd hpre haa
  refine ⟨_, rfl, ?_⟩
  rw [ingest_of_match hc hcd hpre haa]
  have hparams : (candidate v s).params = s.params := by simp [candidate, searched]
  have houtq : (candidate v s).outq = s.outq := by simp [candidate, searched]
  have harmed : (candidate v s).cd = 20#5 := rfl
  generalize candidate v s = u at hparams houtq harmed ⊢
  obtain ⟨heq, h⟩ | ⟨hne, h⟩ := gateRecord_cases (deviceAddress u.pkt) u <;> rw [h]
  · refine ⟨harmed, fun _ => ?_, fun hne => absurd heq hne⟩
    rw [emitRecord_outq, hparams, houtq]
    rfl
  · exact ⟨harmed, fun heq => absurd heq hne, fun _ => houtq⟩

end Sys2Proof.Machine
end

section
/-! What a candidate leaves in the working registers, bit by bit (46_dewhitener.md R173, 48_crc24.md R203, R204). -/

namespace Sys2Proof.Machine

/-- Bytes are the same if their bits in on-air order are. -/
theorem byte_ext {x y : Byte} (h : ∀ c < 8, x.getLsbD (7 - c) = y.getLsbD (7 - c)) : x = y := by
  refine BitVec.eq_of_getLsbD_eq fun i hi => ?_
  have hbit := h (7 - i) (by omega)
  rwa [Nat.sub_sub_self (by omega)] at hbit

theorem vector_getD_toList {n : Nat} (xs : Vector Byte n) (i : Nat) (h : i < n) : xs.toList.getD i 0#8 = xs[i] := by
  simp [List.getD_eq_getElem?_getD, h]

theorem rawByte_bit (s : State) (b c : Nat) (hc : c < 8) : (rawByte s b).getLsbD (7 - c) = bitAt s (b + c) := by
  rw [rawByte_getLsbD s b (7 - c) (by omega), Nat.sub_sub_self (by omega)]

/-- `PKT` is the window from offset 40 on, dewhitened with the keystream of channel 38 (46_dewhitener.md R173). -/
theorem processCandidate_pkt_bit (s : State) {i c : Nat} (hi : i < (processCandidate s).len.toNat + 5) (hc : c < 8) :
    ((processCandidate s).pkt.toList.getD i 0#8).getLsbD (7 - c) =
      (bitAt s (40 + 8 * i + c) ^^ keystreamBit 38#8 (8 * i + c)) := by
  have hcap : i < pktCap := by
    have := (processCandidate s).len.isLt
    unfold pktCap
    omega
  rw [processCandidate_pkt, dewhitenVec_toList, dewhitenBytes_getD _ _ _ i c hi (by simpa using hcap) hc,
    candidateSpan, bufferOf_toList_getD, dif_pos hcap, if_pos hi, rawByte_bit s _ c hc]
  rfl

theorem processCandidate_hdr_bit (s : State) {i c : Nat} (hi : i < 2) (hc : c < 8) :
    ((processCandidate s).hdr.toList.getD i 0#8).getLsbD (7 - c) =
      (bitAt s (40 + 8 * i + c) ^^ keystreamBit 38#8 (8 * i + c)) := by
  have hraw : (#v[rawByte s offHdr, rawByte s (offHdr + 8)] : Vector Byte 2).toList.getD i 0#8 =
      rawByte s (40 + 8 * i) := by
    obtain rfl | rfl : i = 0 ∨ i = 1 := by omega
    · rfl
    · rfl
  rw [processCandidate_hdr, dewhitenedHeader, dewhitenVec_toList,
    dewhitenBytes_getD _ _ _ i c hi (by simpa using hi) hc, hraw, rawByte_bit s _ c hc]
  rfl

/-- The header is dewhitened twice, alone and at the head of the packet, with the same keystream (R174). -/
theorem processCandidate_hdr_eq_pkt (s : State) (i : Nat) (hi : i < 2) :
    (processCandidate s).hdr[i] = (processCandidate s).pkt[i]'(hi.trans (by decide)) := by
  rw [← vector_getD_toList, ← vector_getD_toList]
  refine byte_ext fun c hc => ?_
  rw [processCandidate_hdr_bit s hi hc, processCandidate_pkt_bit s (by omega) hc]

/-- The received CRC as a number (48_crc24.md R204). -/
theorem receivedCrc_toNat (len : BitVec 6) (pkt : Vector Byte pktCap) :
    (receivedCrc len pkt).toNat = (pkt.toList.getD (len.toNat + 2) 0#8).toNat * 65536 +
      (pkt.toList.getD (len.toNat + 3) 0#8).toNat * 256 + (pkt.toList.getD (len.toNat + 4) 0#8).toNat := by
  have hlen := len.isLt
  have hcap : len.toNat + 4 < pktCap := by
    unfold pktCap
    omega
  rw [vector_getD_toList _ _ (by omega), vector_getD_toList _ _ (by omega), vector_getD_toList _ _ hcap]
  exact threeBytes_toNat _ _ _

/-- What stages S5 to S7 of 40_commands_sequencer.md R104 leave in the registers they write, in terms of the bits of
the window; `processed_processCandidate` ties it to the stages. -/
structure Processed (bit : Nat → Bool) (s : State) : Prop where
  pkt : ∀ i < s.len.toNat + 5, ∀ c < 8,
    (s.pkt.toList.getD i 0#8).getLsbD (7 - c) = (bit (40 + 8 * i + c) ^^ keystreamBit 38#8 (8 * i + c))
  hdr : ∀ i (h : i < 2), s.hdr[i] = s.pkt[i]'(h.trans (by decide))
  len : ∀ i < 6, s.len.getLsbD i = s.hdr[1].getLsbD (7 - i)
  calcCrc : s.calcCrc = crcOnAir 0x555555#24 (s.pkt.toList.take (s.len.toNat + 2))
  crc : s.crc = s.calcCrc
  rxCrc : s.rxCrc.toNat = (s.pkt.toList.getD (s.len.toNat + 2) 0#8).toNat * 65536 +
    (s.pkt.toList.getD (s.len.toNat + 3) 0#8).toNat * 256 + (s.pkt.toList.getD (s.len.toNat + 4) 0#8).toNat
  lfsr : s.lfsr = whiteningState 38#8 (8 * (s.len.toNat + 5))

theorem processed_processCandidate (s : State) : Processed (bitAt s) (processCandidate s) where
  pkt _ hi _ hc := processCandidate_pkt_bit s hi hc
  hdr i hi := processCandidate_hdr_eq_pkt s i hi
  len i hi := by rw [processCandidate_len, lengthField_getLsbD _ i hi]
  calcCrc := by
    rw [processCandidate_calcCrc, crcBytes_eq_crcOnAir]
    rfl
  crc := processCandidate_crc s
  rxCrc := by rw [processCandidate_rxCrc, receivedCrc_toNat]
  lfsr := processCandidate_lfsr s

/-- CD.ARM and the queue touch none of these registers. -/
theorem Processed.withCdOutq {bit : Nat → Bool} {s : State} (h : Processed bit s) (cd : BitVec 5)
    (outq : List TaggedByte) : Processed bit { s with cd := cd, outq := outq } :=
  ⟨h.pkt, h.hdr, h.len, h.calcCrc, h.crc, h.rxCrc, h.lfsr⟩

/-- The working registers after an INGEST past the address test. -/
theorem ingest_of_match_registers {s : State} {v : Sample} (hc : s.configured = true) (hcd : s.cd = 0#5)
    (hpre : Alternates (windowBit (pushSample v s))) (haa : CarriesAddress (windowBit (pushSample v s))) :
    (ingest v s).1.trans = 8#4 ∧ (ingest v s).1.aa = advAA ∧ (ingest v s).1.cd = 20#5 ∧
    (ingest v s).1.result = s.result ∧ Processed (windowBit (pushSample v s)) (ingest v s).1 := by
  have hproc := processed_processCandidate (assembleAddress (searched v s))
  have hbits : bitAt (assembleAddress (searched v s)) = windowBit (pushSample v s) := bitAt_searched v s
  rw [hbits] at hproc
  have htrans : (processCandidate (assembleAddress (searched v s))).trans = 8#4 := by
    rw [processCandidate_trans, assembleAddress_trans, searched_trans_of_alternates hpre]
  have haddr : (processCandidate (assembleAddress (searched v s))).aa = advAA := by
    rw [processCandidate_aa, assembleAddress_aa, searched_address_of_carries haa]
  have hresult : (processCandidate (assembleAddress (searched v s))).result = s.result := by simp [searched]
  rw [ingest_of_match_frame hc hcd hpre haa, candidate]
  generalize processCandidate (assembleAddress (searched v s)) = u at hproc htrans haddr hresult ⊢
  exact ⟨htrans, haddr, rfl, hresult, hproc.withCdOutq _ _⟩

/-- Settles O16: the threshold and the bits are those of the pushed window, and the registers are the candidate's. -/
theorem ingestProcessesTheCandidate : Obligations.IngestProcessesTheCandidate := by
  intro s v hc hcd hpre haa
  obtain ⟨hring, hwp⟩ := ingest_ring_wp v hc
  have hbits : windowBit (ingest v s).1 = windowBit (pushSample v s) := windowBit_congr (ingest_params v s) hring hwp
  have hsum : newestSum (ingest v s).1 = newestSum (pushSample v s) := newestSum_congr (ingest_params v s) hring hwp
  have hmean : IsFloorMean (ingest v s).1.thr.toInt (newestSum (ingest v s).1) := by
    rw [ingest_thr, if_pos ⟨hc, hcd⟩, hsum]
    exact isFloorMean_setThreshold _
  obtain ⟨htrans, haddr, harmed, hresult, hproc⟩ := ingest_of_match_registers hc hcd hpre haa
  rw [← hbits] at hproc
  exact ⟨_, rfl, pushed_ingest v hc, hmean, htrans, haddr, harmed, hproc.pkt, hproc.hdr 0 (by decide),
    hproc.hdr 1 (by decide), hproc.len, hproc.calcCrc, hproc.crc, hproc.rxCrc, hproc.lfsr, ingest_params v s,
    ingest_port v s, (ingest_configured v s).trans hc, hresult⟩

end Sys2Proof.Machine
end

section
/-! A packet as its transmitter sends it (95_test_vectors.md section 0): its bits on the air by their offset. -/

namespace Sys2Proof.Machine

@[simp] theorem rev_rev (x : Byte) : rev (rev x) = x := by
  refine byte_ext fun c hc => ?_
  rw [rev_getLsbD _ _ (by omega), rev_getLsbD _ _ (by omega), Nat.sub_sub_self (by omega)]

/-- Bit 7 of a byte is the first of its eight bits on the air (44_field_extractor.md R151). -/
theorem onAirBits_getElem? (xs : List Byte) {i c : Nat} (hi : i < xs.length) (hc : c < 8) :
    (onAirBits xs)[8 * i + c]? = some ((xs.getD i 0#8).getLsbD (7 - c)) := by
  induction xs generalizing i with
  | nil => simp at hi
  | cons x xs ih =>
    rw [onAirBits_cons]
    cases i with
    | zero =>
      rw [List.getElem?_append_left (by simpa using hc)]
      simp [hc]
    | succ i =>
      have hoff : 8 * (i + 1) + c - 8 = 8 * i + c := by omega
      rw [List.getElem?_append_right (by simp; omega), List.length_map, List.length_range, hoff,
        ih (by simpa using hi), List.getD_cons_succ]

section bits
variable (h0 h1 : Byte) (payload : List Byte)

theorem packetBits_preamble {k : Nat} (hk : k < 9) : (packetBits h0 h1 payload)[k]? = some (decide (k % 2 = 1)) := by
  rw [packetBits, List.getElem?_append_left (by simp; omega)]
  revert k
  decide

theorem packetBits_address {n : Nat} (hn : n < 32) :
    (packetBits h0 h1 payload)[8 + n]? = some ((0x8E89BED6#32).getLsbD n) := by
  rw [packetBits, List.getElem?_append_left (by simp; omega), List.getElem?_append_right (by simp)]
  simp [hn]

/-- From offset 40 on, the body whitened for channel 38 (46_dewhitener.md R173). -/
theorem packetBits_body {i c : Nat} (hi : i < (packetBody h0 h1 payload).length) (hc : c < 8) :
    (packetBits h0 h1 payload)[40 + 8 * i + c]? =
      some (((packetBody h0 h1 payload).getD i 0#8).getLsbD (7 - c) ^^ keystreamBit 38#8 (8 * i + c)) := by
  have hoff : 40 + 8 * i + c - 40 = 8 * i + c := by omega
  rw [packetBits, List.getElem?_append_right (by simp; omega), List.length_append, List.length_map, List.length_range,
    List.getElem?_map, List.getElem?_zipIdx]
  simp [hoff, onAirBits_getElem? _ hi hc]

/-- A packet's header and payload as raw bytes. -/
def packetPdu : List Byte := (h0 :: h1 :: payload).map rev

/-- The CRC a packet carries. -/
def packetCrc : BitVec 24 := crcOnAir 0x555555#24 (packetPdu h0 h1 payload)

theorem packetBody_eq : packetBody h0 h1 payload =
    packetPdu h0 h1 payload ++ [(packetCrc h0 h1 payload).extractLsb' 16 8, (packetCrc h0 h1 payload).extractLsb' 8 8,
      (packetCrc h0 h1 payload).extractLsb' 0 8] := rfl

theorem packetPdu_length : (packetPdu h0 h1 payload).length = payload.length + 2 := by simp [packetPdu]

theorem packetBody_length : (packetBody h0 h1 payload).length = payload.length + 5 := by
  simp [packetBody_eq, packetPdu_length]

theorem packetBody_take : (packetBody h0 h1 payload).take (payload.length + 2) = packetPdu h0 h1 payload := by
  rw [packetBody_eq, ← packetPdu_length h0 h1, List.take_left]

theorem packetBody_payload {i : Nat} (hi : i < payload.length) :
    (packetBody h0 h1 payload).getD (i + 2) 0#8 = rev (payload.getD i 0#8) := by
  simp [packetBody_eq, packetPdu, List.getD_eq_getElem?_getD, hi, List.getElem?_append_left]

/-- The CRC bytes are the number the receiver reads from them (48_crc24.md R204). -/
theorem packetBody_crc :
    ((packetBody h0 h1 payload).getD (payload.length + 2) 0#8).toNat * 65536 +
      ((packetBody h0 h1 payload).getD (payload.length + 3) 0#8).toNat * 256 +
      ((packetBody h0 h1 payload).getD (payload.length + 4) 0#8).toNat = (packetCrc h0 h1 payload).toNat := by
  have hjoin : ∀ c : BitVec 24, (c.extractLsb' 16 8 ++ c.extractLsb' 8 8 ++ c.extractLsb' 0 8 : BitVec 24) = c :=
    fun c => by simp only [BitVec.extractLsb'_append_extractLsb'_eq_extractLsb', BitVec.extractLsb'_eq_self]
  rw [← hjoin (packetCrc h0 h1 payload), threeBytes_toNat]
  simp [packetBody_eq, packetPdu_length, List.getD_eq_getElem?_getD, -BitVec.extractLsb'_toNat]
end bits

end Sys2Proof.Machine
end

section
/-! A packet in the window is received (95_test_vectors.md section 1 T6): dewhitening undoes the whitening, so `PKT` is
the packet's body. -/

namespace Sys2Proof.Machine

/-- Bytes read one by one, as the statements read them, make up the lists. -/
theorem take_eq_of_getD {xs ys : List Byte} {n : Nat} (hx : n ≤ xs.length) (hy : n ≤ ys.length)
    (h : ∀ i < n, xs.getD i 0#8 = ys.getD i 0#8) : xs.take n = ys.take n := by
  refine List.ext_getElem (by simp [hx, hy]) fun i hi _ => ?_
  have hn : i < n := hi.trans_le (List.length_take_le n xs)
  have hget := h i hn
  rw [List.getD_eq_getElem _ _ (hn.trans_le hx), List.getD_eq_getElem _ _ (hn.trans_le hy)] at hget
  simpa using hget

section packet
variable {h0 h1 : Byte} {payload : List Byte} {bit : Nat → Bool} {t : State}
variable (hbits : ∀ k b, (packetBits h0 h1 payload)[k]? = some b → bit k = b)
include hbits

theorem alternates_of_packet : Alternates bit := by
  intro i hi
  have hbit : ∀ k < 9, bit k = decide (k % 2 = 1) := fun k hk => hbits k _ (packetBits_preamble h0 h1 payload hk)
  rw [hbit i (by omega), hbit (i + 1) (by omega), Ne, decide_eq_decide]
  omega

theorem carriesAddress_of_packet : CarriesAddress bit := fun _ hn => hbits _ _ (packetBits_address h0 h1 payload hn)

/-- As far as `PKT` is written, it holds the packet's body. -/
theorem pkt_of_packet (hproc : Processed bit t) {i : Nat} (hi : i < t.len.toNat + 5) (hbody : i < payload.length + 5) :
    t.pkt.toList.getD i 0#8 = (packetBody h0 h1 payload).getD i 0#8 := by
  refine byte_ext fun c hc => ?_
  rw [hproc.pkt i hi c hc, hbits _ _ (packetBits_body h0 h1 payload (packetBody_length h0 h1 payload ▸ hbody) hc),
    Bool.xor_assoc, Bool.xor_self, Bool.xor_false]

/-- The length is read from the header before anything past it is extracted (47_aa_filter_length.md R190). -/
theorem len_of_packet (hproc : Processed bit t) (hlen : h1.toNat % 64 = payload.length) :
    t.len.toNat = payload.length := by
  have hhdr : t.hdr[1] = rev h1 := by
    rw [hproc.hdr 1 (by decide), ← vector_getD_toList, pkt_of_packet hbits hproc (by omega) (by omega)]
    rfl
  have hfield : t.len = h1.setWidth 6 := by
    refine BitVec.eq_of_getLsbD_eq fun i hi => ?_
    rw [hproc.len i hi, hhdr, rev_getLsbD _ _ (by omega), Nat.sub_sub_self (by omega), BitVec.getLsbD_setWidth,
      decide_eq_true hi, Bool.true_and]
  rw [hfield, BitVec.toNat_setWidth, hlen]

/-- The block computes the CRC that the packet carries (48_crc24.md R203, R204). -/
theorem crc_of_packet (hproc : Processed bit t) (hlen : t.len.toNat = payload.length) : t.calcCrc = t.rxCrc := by
  have hpkt : ∀ i < payload.length + 5, t.pkt.toList.getD i 0#8 = (packetBody h0 h1 payload).getD i 0#8 :=
    fun i hi => pkt_of_packet hbits hproc (hlen ▸ hi) hi
  have hpdu : t.pkt.toList.take (payload.length + 2) = packetPdu h0 h1 payload := by
    have hcap : payload.length + 2 ≤ t.pkt.toList.length := by
      rw [Vector.length_toList, ← hlen]
      exact crcCount_le_pktCap t.len
    rw [← packetBody_take]
    exact take_eq_of_getD hcap (by simp [packetBody_length]) fun i hi => hpkt i (by omega)
  have hcalc : t.calcCrc = packetCrc h0 h1 payload := by
    rw [hproc.calcCrc, hlen, hpdu, packetCrc]
  have hrx : t.rxCrc.toNat = (packetCrc h0 h1 payload).toNat := by
    rw [hproc.rxCrc, hlen, hpkt _ (by omega), hpkt _ (by omega), hpkt _ (by omega), packetBody_crc]
  rw [hcalc, BitVec.eq_of_toNat_eq hrx]
end packet

/-- Settles O19: the window passes both tests, `PKT` is the packet's body, and its CRC matches. -/
theorem conformingPacketIsReceived : Obligations.ConformingPacketIsReceived := by
  intro s v h0 h1 payload hc hcd hmin _ hlenField hbits
  have hpre := alternates_of_packet hbits
  have haa := carriesAddress_of_packet hbits
  obtain ⟨-, -, -, -, hproc⟩ := ingest_of_match_registers hc hcd hpre haa
  obtain ⟨t, hexec, harmed, hrecord, -⟩ := ingestDecidesByTheCrc s v hc hcd hpre haa
  obtain rfl : (ingest v s).1 = t := Host.Outcome.next.inj hexec
  have hlen := len_of_packet hbits hproc hlenField
  have hpkt : ∀ i (hi : i < 6), rev ((ingest v s).1.pkt[i + 2]'(by unfold pktCap; omega)) = payload.getD i 0#8 := by
    intro i hi
    rw [← vector_getD_toList, pkt_of_packet hbits hproc (by omega) (by omega),
      packetBody_payload h0 h1 payload (by omega), rev_rev]
  refine ⟨_, rfl, harmed, hlen, ?_⟩
  rw [hrecord (crc_of_packet hbits hproc hlen), ← hpkt 5 (by decide), ← hpkt 4 (by decide), ← hpkt 3 (by decide),
    ← hpkt 2 (by decide), ← hpkt 1 (by decide), ← hpkt 0 (by decide)]

end Sys2Proof.Machine
end

section
/-! RB.PUSH and CD.TICK run alone, and a run of INGESTs while the cooldown lasts (41_ingest_cooldown.md R120 to R123). -/

namespace Sys2Proof.Machine

/-- Settles O31: the new `wp` is the slot that was written. -/
theorem pushWritesTheNextSlot : Obligations.PushWritesTheNextSlot := by
  intro s v
  have hwp := pushSample_wp_eq v s
  refine ⟨{ pushSample v s with result := .nothing }, rfl, hwp, ?_, fun i hi => ?_, rfl⟩
  · exact (pushSample_read v s _).trans (if_pos hwp)
  · exact (pushSample_read v s i).trans (if_neg (hwp ▸ hi))

/-- `eligible` as a test of the number in `cd` (41_ingest_cooldown.md R121). -/
theorem eligible_eq (s : State) : eligible s = decide (s.cd.toNat = 0) := by
  rw [eligible, beq_eq_decide, decide_eq_decide, ← BitVec.toNat_inj, BitVec.toNat_zero]

/-- Settles O32: the bit is taken before the decrement, which stops at 0. -/
theorem tickTestsThenDecrements : Obligations.TickTestsThenDecrements := by
  intro s
  have hcd := tickCooldown_toNat s
  refine ⟨{ tickCooldown s with result := .bit (eligible s) }, rfl, congrArg UnitResult.bit (eligible_eq s),
    fun hzero => ?_, fun hpos => ?_, rfl⟩
  · exact hcd.trans (by rw [hzero])
  · show (tickCooldown s).cd.toNat + 1 = s.cd.toNat
    rw [hcd, Nat.sub_add_cancel hpos]

/-- A run no longer than the cooldown that is left pushes its samples and counts `cd` down, and does nothing else
(41_ingest_cooldown.md R121). -/
theorem ingestAll_of_cooling (vs : List Sample) {s : State} (hc : s.configured = true)
    (hle : vs.length ≤ s.cd.toNat) :
    (ingestAll vs s).cd.toNat = s.cd.toNat - vs.length ∧
    ingestAll vs s = { s with
      wp := (ingestAll vs s).wp, ring := (ingestAll vs s).ring, cd := (ingestAll vs s).cd } := by
  induction vs generalizing s with
  | nil => exact ⟨rfl, rfl⟩
  | cons v vs ih =>
    rw [List.length_cons] at hle ⊢
    have hcd : s.cd ≠ 0#5 := fun h => absurd hle (by simp [h])
    obtain ⟨t, hexec, -, htick, hframe⟩ := ingestWhileCoolingDown s v hc hcd
    have ht : (ingest v s).1 = t := Host.Outcome.next.inj hexec
    have hct : t.configured = true := by rw [← ht, ingest_configured, hc]
    obtain ⟨hcount, hrest⟩ := ih hct (by omega)
    rw [ingestAll_cons, ht]
    refine ⟨by omega, hrest.trans ?_⟩
    rw [hframe]

/-- Settles O21: 20 is the cooldown that is left. -/
theorem cooldownLastsTwentyIngests : Obligations.CooldownLastsTwentyIngests := by
  intro s vs hc hcd hlen
  have h20 : s.cd.toNat = 20 := by rw [hcd]; rfl
  rw [← h20] at hlen ⊢
  exact ingestAll_of_cooling vs hc hlen

end Sys2Proof.Machine
end

section
/-! SL.THRESH and SL.BIT run alone (42_slicer.md R130 to R134). -/

namespace Sys2Proof.Machine

/-- Settles O33: the mean of eight samples fits `thr`, so the floor kept there is exact. -/
theorem thresholdIsTheFloorOfTheMean : Obligations.ThresholdIsTheFloorOfTheMean := by
  intro s
  obtain ⟨hle, hlt⟩ := isFloorMean_setThreshold s
  exact ⟨{ setThreshold s with result := .nothing }, rfl, hle, hlt, rfl⟩

/-- Settles O34: the bit is the comparison of the sample read with `thr`. -/
theorem sliceIsAStrictSignedComparison : Obligations.SliceIsAStrictSignedComparison := by
  intro s k
  exact ⟨{ s with result := .bit (bitAt s k) }, rfl, congrArg UnitResult.bit (bitAt_eq s k), rfl⟩

/-- Settles O35: against the floor of the mean, the bits are those of the window. -/
theorem sliceAgainstTheExactMean : Obligations.SliceAgainstTheExactMean := by
  intro s k
  have hbit : bitAt (setThreshold s) k = windowBit s k := congrFun (bitAt_setThreshold s) k
  exact ⟨{ setThreshold s with result := .nothing }, { setThreshold s with result := .bit (bitAt (setThreshold s) k) },
    rfl, rfl, congrArg UnitResult.bit hbit⟩

end Sys2Proof.Machine
end

section
/-! PD.DETECT run alone (43_preamble.md R140 to R142), and the two windows it accepts. -/

namespace Sys2Proof.Machine

/-- The bit view against the threshold the state holds is the statements' (42_slicer.md R133). -/
theorem bitAt_eq_slicedBit (s : State) : bitAt s = slicedBit s := funext (bitAt_eq s)

/-- `pre_ok` as a test of the count (43_preamble.md R140). -/
theorem preOk_countTransitions (s : State) :
    preOk (countTransitions s) = decide (transitionCount (slicedBit s) = 8) := by
  rw [preOk, countTransitions_trans, beq_eq_decide, decide_eq_decide, transitions_eq_eight_iff,
    transitionCount_eq_eight_iff, bitAt_eq_slicedBit]

/-- Settles O36: the fold counts the unequal neighbours, and `pre_ok` tests its count. -/
theorem detectCountsTransitions : Obligations.DetectCountsTransitions := by
  intro s
  have hcount : (countTransitions s).trans.toNat = transitionCount (slicedBit s) := by
    rw [countTransitions_trans, transitions_toNat, bitAt_eq_slicedBit]
  exact ⟨{ countTransitions s with result := .bit (preOk (countTransitions s)) }, rfl, hcount,
    congrArg UnitResult.bit (preOk_countTransitions s), rfl⟩

/-- Alternating bits are fixed by their first: those at odd offsets are its complement, the others equal it. -/
theorem alternates_iff_parity (bit : Nat → Bool) :
    Alternates bit ↔ ∃ b, ∀ k < 9, bit k = (b ^^ decide (k % 2 = 1)) := by
  constructor
  · intro halt
    refine ⟨bit 0, fun k hk => ?_⟩
    induction k with
    | zero => simp
    | succ k ih =>
      have hflip : bit (k + 1) = !bit k := Bool.eq_not_of_ne (halt k (by omega)).symm
      rw [hflip, ih (by omega), ← Bool.xor_not]
      congr 1
      rw [← decide_not, decide_eq_decide]
      omega
  · rintro ⟨b, hparity⟩ i hi
    rw [hparity i (by omega), hparity (i + 1) (by omega), Ne, Bool.xor_right_inj, decide_eq_decide]
    omega

/-- One pattern for each polarity (43_preamble.md R141). -/
theorem alternates_iff_patterns (bit : Nat → Bool) : Alternates bit ↔
    (List.range 9).map bit = [false, true, false, true, false, true, false, true, false] ∨
      (List.range 9).map bit = [true, false, true, false, true, false, true, false, true] := by
  have hmap : ∀ b, (∀ k < 9, bit k = (b ^^ decide (k % 2 = 1))) ↔
      (List.range 9).map bit = (List.range 9).map fun k => b ^^ decide (k % 2 = 1) := fun b => by
    rw [List.map_inj_left]
    exact forall_congr' fun k => by rw [List.mem_range]
  rw [alternates_iff_parity, Bool.exists_bool, hmap, hmap]
  rfl

/-- Settles O37: eight transitions among nine bits are alternation, which leaves the first bit alone free. -/
theorem detectAcceptsExactlyTwoPatterns : Obligations.DetectAcceptsExactlyTwoPatterns := by
  intro s
  obtain ⟨t, hexec, -, hresult, -⟩ := detectCountsTransitions s
  refine ⟨t, _, hexec, hresult, ?_⟩
  rw [decide_eq_true_iff, transitionCount_eq_eight_iff, alternates_iff_patterns]

end Sys2Proof.Machine
end

section
/-! FX.BYTE and FX.SPAN run alone (44_field_extractor.md R151, R153). -/

namespace Sys2Proof.Machine

/-- A raw byte in the statements' bits, the lowest offset first (44_field_extractor.md R151). -/
theorem rawByte_slicedBit (s : State) (b : Nat) {c : Nat} (hc : c < 8) :
    (rawByte s b).getLsbD (7 - c) = slicedBit s (b + c) := by
  rw [rawByte_bit s b c hc, bitAt_eq_slicedBit]

/-- Settles O38: the bits of a raw byte are the sliced bits from its offset on. -/
theorem extractByteMsbFirst : Obligations.ExtractByteMsbFirst := by
  intro s b
  exact ⟨{ s with result := .byte (rawByte s b) }, rawByte s b, rfl, rfl, fun _ hc => rawByte_slicedBit s b hc, rfl⟩

/-- An entry of `PKT` after FX.SPAN: the raw byte at its offset below the count, from there on what it held (R153). -/
theorem extractSpan_pkt_getD (n : Nat) (s : State) {i : Nat} (hi : i < pktCap) :
    (extractSpan n s).pkt.toList.getD i 0#8 =
      if i < n then rawByte s (40 + 8 * i) else s.pkt.toList.getD i 0#8 := by
  rw [extractSpan_pkt, bufferOf_toList_getD, dif_pos hi, vector_getD_toList _ _ hi]
  rfl

/-- An entry that FX.SPAN fills, whether or not the count lies within `PKT`. -/
theorem extractSpan_pkt_bit {n : Nat} (s : State) {i c : Nat} (hi : i < pktCap) (hn : i < n) (hc : c < 8) :
    ((extractSpan n s).pkt.toList.getD i 0#8).getLsbD (7 - c) = slicedBit s (40 + 8 * i + c) := by
  rw [extractSpan_pkt_getD n s hi, if_pos hn, rawByte_slicedBit s _ hc]

/-- Settles O39: an entry is filled or kept by whether its index is below the count. -/
theorem extractSpanFillsPkt : Obligations.ExtractSpanFillsPkt := by
  intro s n _
  refine ⟨{ extractSpan n s with result := .nothing }, rfl, fun i hi c hc hn => extractSpan_pkt_bit s hi hn hc,
    fun i hi hn => ?_, rfl⟩
  exact (extractSpan_pkt_getD n s hi).trans (if_neg (Nat.not_lt.2 hn))

end Sys2Proof.Machine
end

section
/-! FX.SPAN, DW.RUN and CRC.RUN with a count past the buffer (log 11), from what each does for every count. -/

namespace Sys2Proof.Machine

/-! ### DW.RUN, whichever the buffer (46_dewhitener.md R173, R174) -/

@[simp] theorem bufferBytes_length (s : State) (data : Buffer) : (bufferBytes s data).length = data.cap := by
  cases data
  case hdr => exact s.hdr.length_toList
  case pkt => exact s.pkt.length_toList

theorem bufferBytes_runWhitening (data : Buffer) (n : Nat) (ch : Byte) (s : State) :
    bufferBytes (runWhitening data n ch s) data = (dewhitenBytes n (bufferBytes s data) (whitenSeed ch)).1 := by
  cases data
  case hdr => rfl
  case pkt => rfl

theorem bufferBytes_runWhitening_of_ne {data other : Buffer} (h : other ≠ data) (n : Nat) (ch : Byte) (s : State) :
    bufferBytes (runWhitening data n ch s) other = bufferBytes s other := by
  cases data <;> cases other
  case hdr.pkt | pkt.hdr => rfl
  case hdr.hdr | pkt.pkt => exact absurd rfl h

/-- A byte below the count takes its eight bits of the keystream. -/
theorem runWhitening_bit (data : Buffer) {n : Nat} (ch : Byte) (s : State) {k c : Nat} (hk : k < data.cap) (hn : k < n)
    (hc : c < 8) :
    ((bufferBytes (runWhitening data n ch s) data).getD k 0#8).getLsbD (7 - c) =
      (((bufferBytes s data).getD k 0#8).getLsbD (7 - c) ^^ keystreamBit ch (8 * k + c)) := by
  rw [bufferBytes_runWhitening, dewhitenBytes_getD n _ _ k c hn (by rwa [bufferBytes_length]) hc]
  rfl

/-- The register a run leaves depends on the count alone, and not on how many of the bytes exist. -/
theorem runWhitening_lfsr_eq (data : Buffer) (n : Nat) (ch : Byte) (s : State) :
    (runWhitening data n ch s).lfsr = whiteningState ch (8 * n) := by
  rw [runWhitening_lfsr, dewhitenBytes_register, whiteningState]

theorem runWhitening_frame (data : Buffer) (n : Nat) (ch : Byte) (s : State) :
    runWhitening data n ch s = { s with
      hdr := (runWhitening data n ch s).hdr, pkt := (runWhitening data n ch s).pkt,
      lfsr := (runWhitening data n ch s).lfsr } := by
  cases data
  case hdr => rfl
  case pkt => rfl

/-! ### The obligation -/

/-- Settles O58: each operation does past its buffer what it does within, and CRC.RUN reads a free byte for every entry
that is not there. -/
theorem countsBeyondTheBufferRun : Obligations.CountsBeyondTheBufferRun := by
  intro s n
  refine ⟨fun hn => ?span, fun data ch hn => ?whitening, fun seed hn => ?crc⟩
  case span =>
    exact ⟨{ extractSpan n s with result := .nothing }, rfl,
      fun i hi c hc => extractSpan_pkt_bit s hi (hi.trans hn) hc, rfl⟩
  case whitening =>
    refine ⟨{ runWhitening data n ch s with result := .nothing }, rfl, fun k hk c hc => ?_, fun other hother => ?_,
      runWhitening_lfsr_eq data n ch s, ?_⟩
    · exact runWhitening_bit data ch s hk (hk.trans hn) hc
    · exact bufferBytes_runWhitening_of_ne hother n ch s
    · exact congrArg (fun t : State => { t with result := .nothing }) (runWhitening_frame data n ch s)
  case crc =>
    refine ⟨{ runCrc n seed s with result := .word24 (runCrc n seed s).calcCrc }, rfl, ?_, rfl, rfl, rfl⟩
    show (runCrc n seed s).calcCrc = _
    rw [runCrc_calcCrc, crcBytes_eq_crcOnAir, pktBytes_beyond n s hn.le]

end Sys2Proof.Machine
end

section
/-! BR.REV run alone (45_bit_reversal.md R160, R161). -/

namespace Sys2Proof.Machine

/-- Settles O40: reversal moves each bit to its mirror position and undoes itself, and only the result is written. -/
theorem bitReversal : Obligations.BitReversal := by
  intro s x
  refine ⟨{ s with result := .byte (rev x) }, { s with result := .byte (rev (rev x)) }, rev x, rfl, rfl,
    fun i hi => ?mirror, rfl, rfl, congrArg UnitResult.byte (rev_rev x)⟩
  case mirror =>
    rw [rev_getLsbD x (7 - i) (by omega), Nat.sub_sub_self (by omega)]

end Sys2Proof.Machine
end

section
/-! DW.SEED and DW.STEP run alone (46_dewhitener.md R171, R172, R175). -/

namespace Sys2Proof.Machine

/-- Settles O41: only bit 1 of the reversed channel is set by force. -/
theorem seedIsTheReversedChannel : Obligations.SeedIsTheReversedChannel := by
  intro s ch
  exact ⟨{ seedWhitening ch s with result := .nothing }, rfl, fun i hi => whitenSeed_getLsbD ch i hi, rfl⟩

/-- Settles O42: the bit handed back is the old top bit, which the shift feeds into bits 1 and 5. -/
theorem whiteningStep : Obligations.WhiteningStep := by
  intro s
  refine ⟨{ stepWhitening s with result := .bit (whitenBit s.lfsr) }, rfl, rfl, lfsrNext_getLsbD s.lfsr 0 (by decide),
    lfsrNext_getLsbD s.lfsr 1 (by decide), lfsrNext_getLsbD s.lfsr 5 (by decide), fun i hi h0 h1 h5 => ?shifted, rfl⟩
  case shifted =>
    exact (lfsrNext_getLsbD s.lfsr i hi).trans (by rw [if_neg h0, if_neg h1, if_neg h5])

end Sys2Proof.Machine
end

section
/-! The period of the whitening register (46_dewhitener.md R173). A step is linear, so that 127 steps, which lead one
register with bit 0 clear back to itself, lead all of them back. As 127 is prime, a shorter period would be 1. -/

namespace Sys2Proof.Machine
open Function

theorem whiteningState_eq_iterate (ch : Byte) (j : Nat) : whiteningState ch j = lfsrNext^[j] (whitenSeed ch) := by
  induction j with
  | zero => rfl
  | succ j ih => rw [iterate_succ_apply', ← ih]; rfl

theorem whiteningState_eq_seed_iff (ch : Byte) (j : Nat) :
    whiteningState ch j = whiteningState ch 0 ↔ IsPeriodicPt lfsrNext j (whitenSeed ch) := by
  rw [whiteningState_eq_iterate]
  rfl

/-! ### 127 steps lead back -/

/-- A step is linear over XOR. -/
theorem lfsrNext_xor : Semiconj₂ lfsrNext (· ^^^ ·) (· ^^^ ·) := by
  intro a b
  refine BitVec.eq_of_getLsbD_eq fun i hi => ?_
  simp only [BitVec.getLsbD_xor, lfsrNext_getLsbD _ i hi]
  split_ifs
  · rfl
  · simp only [Bool.xor_assoc, Bool.xor_left_comm]
  · simp only [Bool.xor_assoc, Bool.xor_left_comm]
  · rfl

theorem isPeriodicPt_lfsrNext_xor {n : Nat} {a b : BitVec 8} (ha : IsPeriodicPt lfsrNext n a)
    (hb : IsPeriodicPt lfsrNext n b) : IsPeriodicPt lfsrNext n (a ^^^ b) :=
  calc lfsrNext^[n] (a ^^^ b)
    _ = lfsrNext^[n] a ^^^ lfsrNext^[n] b := lfsrNext_xor.iterate n a b
    _ = a ^^^ b := congrArg₂ (· ^^^ ·) ha hb

/-- The register whose bits 1 to 7 are those of `l`, summed from the states of the register that starts with bit 1
alone set: before the tap is reached, state i has bit i + 1 alone set. -/
def sumOfStates (l : BitVec 8) : BitVec 8 :=
  (List.range 7).foldl (fun r i => if l.getLsbD (i + 1) then r ^^^ lfsrNext^[i] 2#8 else r) 0#8

theorem sumOfStates_eq_self (l : BitVec 8) (h0 : l.getLsbD 0 = false) : sumOfStates l = l := by
  revert l
  decide

theorem isPeriodicPt_sumOfStates {n : Nat} (h : IsPeriodicPt lfsrNext n 2#8) (l : BitVec 8) :
    IsPeriodicPt lfsrNext n (sumOfStates l) := by
  have hzero : IsPeriodicPt lfsrNext n 0#8 := iterate_fixed (by decide) n
  refine List.foldlRecOn _ _ hzero fun r hr i _ => ?_
  split_ifs
  · exact isPeriodicPt_lfsrNext_xor hr (h.apply_iterate i)
  · exact hr

theorem isPeriodicPt_lfsrNext_127 (l : BitVec 8) (h0 : l.getLsbD 0 = false) : IsPeriodicPt lfsrNext 127 l := by
  have htwo : IsPeriodicPt lfsrNext 127 2#8 := by decide +kernel
  rw [← sumOfStates_eq_self l h0]
  exact isPeriodicPt_sumOfStates htwo l

/-! ### No fewer do -/

theorem eq_zero_of_isFixedPt_lfsrNext : ∀ l : BitVec 8, IsFixedPt lfsrNext l → l = 0#8 := by decide

theorem not_isFixedPt_whitenSeed (ch : Byte) : ¬ IsFixedPt lfsrNext (whitenSeed ch) := by
  intro h
  have hbit := whitenSeed_getLsbD ch 1 (by decide)
  rw [eq_zero_of_isFixedPt_lfsrNext _ h] at hbit
  simp at hbit

theorem minimalPeriod_whitenSeed (ch : Byte) (hch : ch.toNat < 64) : minimalPeriod lfsrNext (whitenSeed ch) = 127 := by
  have h0 : (whitenSeed ch).getLsbD 0 = false := by
    rw [whitenSeed_getLsbD ch 0 (by decide)]
    exact Nat.testBit_lt_two_pow (by omega)
  have : Fact (Nat.Prime 127) := ⟨by norm_num⟩
  exact minimalPeriod_eq_prime (isPeriodicPt_lfsrNext_127 _ h0) (not_isFixedPt_whitenSeed ch)

/-- Settles O43: 127 is the least period of the seed under a step of the register. -/
theorem whiteningPeriod : Obligations.WhiteningPeriod := by
  intro ch hch
  have hper := minimalPeriod_whitenSeed ch hch
  simp only [ne_eq, whiteningState_eq_seed_iff]
  refine ⟨hper ▸ isPeriodicPt_minimalPeriod lfsrNext (whitenSeed ch), fun j hpos hlt => ?_⟩
  exact not_isPeriodicPt_of_pos_of_lt_minimalPeriod hpos.ne' (hper ▸ hlt)

end Sys2Proof.Machine
end

section
/-! DW.RUN with a count within the buffer (46_dewhitener.md R173, R174, R176). -/

namespace Sys2Proof.Machine

/-- A byte from the count upward stays. -/
theorem runWhitening_byte_beyond (data : Buffer) {n : Nat} (ch : Byte) (s : State) {k : Nat} (hk : n ≤ k) :
    (bufferBytes (runWhitening data n ch s) data).getD k 0#8 = (bufferBytes s data).getD k 0#8 := by
  rw [bufferBytes_runWhitening, dewhitenBytes_getD_beyond n _ _ k hk]

/-- Settles O44: a byte takes its bits of the keystream or stays by whether its index is below the count. -/
theorem whiteningRunXorsTheKeystream : Obligations.WhiteningRunXorsTheKeystream := by
  intro s data n ch hn
  exact ⟨{ runWhitening data n ch s with result := .nothing }, rfl,
    fun k hk c hc => runWhitening_bit data ch s (hk.trans_le hn) hk hc,
    fun k hk => runWhitening_byte_beyond data ch s hk,
    fun other hother => bufferBytes_runWhitening_of_ne hother n ch s,
    runWhitening_lfsr_eq data n ch s,
    congrArg (fun t : State => { t with result := .nothing }) (runWhitening_frame data n ch s)⟩

/-- A buffer is what its bytes are, read one by one. -/
theorem bufferBytes_ext {s t : State} {data : Buffer}
    (h : ∀ k, (bufferBytes s data).getD k 0#8 = (bufferBytes t data).getD k 0#8) :
    bufferBytes s data = bufferBytes t data := by
  have htake := take_eq_of_getD (n := data.cap) (bufferBytes_length s data).ge (bufferBytes_length t data).ge
    fun k _ => h k
  rwa [List.take_of_length_le (bufferBytes_length s data).le,
    List.take_of_length_le (bufferBytes_length t data).le] at htake

/-- Settles O45: the second run starts from the same seed, so that it XORs the same bits of the keystream. -/
theorem whiteningIsAnInvolution : Obligations.WhiteningIsAnInvolution := by
  intro s data n ch hn
  obtain ⟨t, hexec, hbits, hbeyond, hother, hlfsr, -⟩ := whiteningRunXorsTheKeystream s data n ch hn
  obtain ⟨u, hexec', hbits', hbeyond', hother', hlfsr', -⟩ := whiteningRunXorsTheKeystream t data n ch hn
  have hback : ∀ b, bufferBytes u b = bufferBytes s b := by
    intro b
    by_cases hb : b = data
    case neg => rw [hother' b hb, hother b hb]
    case pos =>
      subst hb
      refine bufferBytes_ext fun k => ?_
      obtain hk | hk := Nat.lt_or_ge k n
      · refine byte_ext fun c hc => ?_
        rw [hbits' k hk c hc, hbits k hk c hc, Bool.xor_assoc, Bool.xor_self, Bool.xor_false]
      · rw [hbeyond' k hk, hbeyond k hk]
  exact ⟨t, u, hexec, hexec', Vector.toList_inj.1 (hback .hdr), Vector.toList_inj.1 (hback .pkt),
    hlfsr'.trans hlfsr.symm⟩

end Sys2Proof.Machine
end

section
/-! AA.ASM, AA.CMP, CRC.CMP and LD.LEN run alone (47_aa_filter_length.md R185, R186, R190, 48_crc24.md R205). -/

namespace Sys2Proof.Machine

/-- Settles O46: the assembled address is the sliced bits from offset 8 on, in order. -/
theorem addressAssembly : Obligations.AddressAssembly := by
  intro s
  refine ⟨{ assembleAddress s with result := .nothing }, rfl, fun n hn => ?bits, rfl⟩
  case bits =>
    rw [← bitAt_eq_slicedBit]
    exact accessAddress_getLsbD s n hn

/-- A flag that compares two words compares their values. -/
theorem beq_eq_decide_toNat {w : Nat} (x y : BitVec w) : (x == y) = decide (x.toNat = y.toNat) := by
  rw [beq_eq_decide, decide_eq_decide, BitVec.toNat_inj]

/-- Settles O47: each operation hands back its flag, and only the result is written. -/
theorem comparisonsOnlyRead : Obligations.ComparisonsOnlyRead := by
  intro s
  exact ⟨⟨{ s with result := .bit (aaOk s) }, rfl, congrArg UnitResult.bit (beq_eq_decide_toNat s.aa advAA), rfl⟩,
    { s with result := .bit (crcOk s) }, rfl, congrArg UnitResult.bit (beq_eq_decide_toNat s.calcCrc s.rxCrc), rfl⟩

/-- Settles O48: the mask keeps the six low bits of the reversed byte. -/
theorem lengthIsSixReversedBits : Obligations.LengthIsSixReversedBits := by
  intro s
  exact ⟨{ decodeLength s with result := .nothing }, rfl, fun i hi => lengthField_getLsbD s.hdr[1] i hi, rfl⟩

end Sys2Proof.Machine
end

section
/-! The window that arms the cooldown (47_aa_filter_length.md R187, 49_field_emitter.md R226). -/

namespace Sys2Proof.Machine

variable {s : State}

/-! ### Preamble and address as 40 bits -/

/-- The address starts with a 0, so that of the two preambles only the one that starts with a 0 can stand before it
(43_preamble.md R141, 47_aa_filter_length.md R187). -/
theorem alternates_iff_of_carriesAddress {bit : Nat → Bool} (haa : CarriesAddress bit) :
    Alternates bit ↔ ∀ k < 8, bit k = decide (k % 2 = 1) := by
  have h8 : bit 8 = false := haa 0 (by decide)
  rw [alternates_iff_parity]
  constructor
  · rintro ⟨b, hparity⟩ k hk
    have hb : b = false := by simpa [h8] using (hparity 8 (by decide)).symm
    rw [hparity k (by omega), hb, Bool.false_xor]
  · intro hpre
    refine ⟨false, fun k hk => ?_⟩
    obtain hk | rfl := Nat.lt_succ_iff_lt_or_eq.1 hk
    · rw [hpre k hk, Bool.false_xor]
    · exact h8

/-- Both tests together fix the 40 bits from offset 0 on (47_aa_filter_length.md R187). -/
theorem alternates_and_carriesAddress_iff (bit : Nat → Bool) : Alternates bit ∧ CarriesAddress bit ↔
    (List.range 40).map bit =
      (List.range 8).map (fun k => decide (k % 2 = 1)) ++ (List.range 32).map fun n => (0x8E89BED6#32).getLsbD n := by
  have hsplit : (List.range 40).map bit = (List.range 8).map bit ++ (List.range 32).map fun n => bit (8 + n) := by
    rw [List.range_add (n := 8) (m := 32), List.map_append, List.map_map]
    rfl
  rw [and_congr_left alternates_iff_of_carriesAddress, hsplit,
    List.append_eq_append_iff_of_size_eq_left (by simp), List.map_inj_left, List.map_inj_left]
  simp only [List.mem_range, CarriesAddress]

/-! ### The two tests of an eligible INGEST, and the counter it leaves -/

/-- The preamble test reads the window of the push (43_preamble.md R140). -/
theorem preOk_searched_iff (v : Sample) (s : State) :
    preOk (searched v s) = true ↔ Alternates (windowBit (pushSample v s)) := by
  rw [preOk, beq_iff_eq, searched, countTransitions_trans, transitions_eq_eight_iff, bitAt_setThreshold]
  rfl

/-- The address test reads the window of the push (47_aa_filter_length.md R186). -/
theorem aaOk_searched_iff (v : Sample) (s : State) :
    aaOk (assembleAddress (searched v s)) = true ↔ CarriesAddress (windowBit (pushSample v s)) := by
  rw [aaOk, beq_iff_eq, assembleAddress_aa, accessAddress_eq_advAA_iff, bitAt_searched]

/-- A tick at 0 stays there (41_ingest_cooldown.md R122), and the tests write no counter. -/
theorem searched_cd (v : Sample) (hcd : s.cd = 0#5) : (searched v s).cd = 0#5 := by
  refine BitVec.eq_of_toNat_eq ?_
  show (tickCooldown (pushSample v s)).cd.toNat = 0
  rw [tickCooldown_toNat, pushSample_cd, hcd]
  rfl

/-- An eligible INGEST that fails a test leaves the counter at 0 (60_exceptions.md R242, R243). -/
theorem ingest_cd_of_mismatch (v : Sample) (hc : s.configured = true) (hcd : s.cd = 0#5)
    (h : ¬ (Alternates (windowBit (pushSample v s)) ∧ CarriesAddress (windowBit (pushSample v s)))) :
    (ingest v s).1.cd = 0#5 := by
  rw [← preOk_searched_iff, ← aaOk_searched_iff] at h
  rw [ingest_fst, outcomeOf, if_neg (by simp [hc]), if_neg (not_not.2 hcd)]
  cases hpre : preOk (searched v s) with
  | false => exact searched_cd v hcd
  | true =>
    have haa : aaOk (assembleAddress (searched v s)) = false :=
      Bool.eq_false_of_not_eq_true fun haa => h ⟨hpre, haa⟩
    rw [if_neg (by decide), if_pos haa]
    exact searched_cd v hcd

/-- An INGEST leaves the window of its push. -/
theorem windowBit_ingest (v : Sample) (hc : s.configured = true) :
    windowBit (ingest v s).1 = windowBit (pushSample v s) := by
  obtain ⟨hring, hwp⟩ := ingest_ring_wp v hc
  exact windowBit_congr (ingest_params v s) hring hwp

/-- Settles O20: both tests together pass on one window of 40 bits, and the counter is armed exactly when they do. -/
theorem matchingWindow : Obligations.MatchingWindow := by
  intro s v hc hcd
  have hbits := alternates_and_carriesAddress_iff (windowBit (pushSample v s))
  refine ⟨_, rfl, ?_⟩
  rw [windowBit_ingest v hc]
  by_cases hmatch : Alternates (windowBit (pushSample v s)) ∧ CarriesAddress (windowBit (pushSample v s))
  · obtain ⟨-, -, harmed, -⟩ := ingest_of_match_registers hc hcd hmatch.1 hmatch.2
    exact ⟨iff_of_true harmed (hbits.1 hmatch), fun hne => absurd harmed hne⟩
  · have hzero := ingest_cd_of_mismatch v hc hcd hmatch
    exact ⟨iff_of_false (by rw [hzero]; decide) (mt hbits.2 hmatch), fun _ => hzero⟩

end Sys2Proof.Machine
end

section
/-! CRC.INIT, CRC.BIT, CRC.RUN and CRC.RXASM run alone (48_crc24.md R201 to R204). -/

namespace Sys2Proof.Machine

/-- Settles O49: CRC.INIT writes its seed to `crc` and no other field of the block. -/
theorem crcSeedLoads : Obligations.CrcSeedLoads := fun s seed =>
  ⟨{ initCrc seed s with result := .nothing }, rfl, rfl, rfl⟩

/-- Settles O50: the step of the register, bit by bit, is what CRC.BIT writes. -/
theorem crcShift : Obligations.CrcShift := fun s d =>
  ⟨{ shiftCrc d s with result := .nothing }, rfl, fun i hi => crcNext_getLsbD s.crc d i hi, rfl⟩

/-- Within `PKT` CRC.RUN takes the entries' bits in on-air order and no free value (48_crc24.md R203). -/
theorem runCrc_within {n : Nat} (hn : n ≤ pktCap) (seed : BitVec 24) (s : State) :
    runCrc n seed s =
      { s with crc := crcOnAir seed (s.pkt.toList.take n), calcCrc := crcOnAir seed (s.pkt.toList.take n) } := by
  simp [runCrc, pktBytes_within n s hn, crcBytes_eq_crcOnAir, Nat.sub_eq_zero_of_le hn]

/-- Settles O51: within `PKT` no free value is read, and the bytes go through the register bit 7 first. -/
theorem crcConsumesOnAirOrder : Obligations.CrcConsumesOnAirOrder := by
  intro s n seed hn
  refine ⟨{ runCrc n seed s with result := .word24 (runCrc n seed s).calcCrc }, rfl, ?_⟩
  rw [runCrc_within hn]
  exact ⟨rfl, rfl, rfl, rfl⟩

/-- Settles O54: the assembled word as a number. -/
theorem receivedCrcIsBigEndian : Obligations.ReceivedCrcIsBigEndian := fun s =>
  ⟨{ assembleRx s with result := .nothing }, rfl, receivedCrc_toNat s.len s.pkt, rfl⟩

end Sys2Proof.Machine
end

section
/-! The CRC as a linear map over GF(2) of seed and data (48_crc24.md R207): on the XOR of two inputs it is the XOR of
what the two leave, and no two registers or bytes that differ leave the same register. -/

namespace Sys2Proof.Machine

/-- A step of the register is linear in register and data bit (48_crc24.md R202, R207). -/
theorem crcNext_xor (a b : BitVec 24) (d e : Bool) : crcNext (a ^^^ b) (d ^^ e) = crcNext a d ^^^ crcNext b e := by
  refine BitVec.eq_of_getLsbD_eq fun i hi => ?_
  simp only [BitVec.getLsbD_xor, crcNext_getLsbD _ _ i hi, Bool.bne_eq_xor, Bool.and_xor_distrib_left,
    Bool.xor_assoc, Bool.xor_left_comm]

/-- The linearity of a step, carried along a run over the bits `f v` and `g v`. -/
theorem foldl_crcNext_xor (f g : Nat → Bool) (l : List Nat) (a b : BitVec 24) :
    l.foldl (fun c v => crcNext c (f v ^^ g v)) (a ^^^ b) =
      l.foldl (fun c v => crcNext c (f v)) a ^^^ l.foldl (fun c v => crcNext c (g v)) b := by
  induction l generalizing a b with
  | nil => rfl
  | cons v l ih => simp only [List.foldl_cons, crcNext_xor, ih]

theorem crcByte_xor (a b : BitVec 24) (x y : Byte) : crcByte (a ^^^ b) (x ^^^ y) = crcByte a x ^^^ crcByte b y := by
  simp only [crcByte_eq, BitVec.getLsbD_xor]
  exact foldl_crcNext_xor (fun v => x.getLsbD (7 - v)) (fun v => y.getLsbD (7 - v)) _ a b

theorem crcBytes_xor {xs ys : List Byte} (h : xs.length = ys.length) (a b : BitVec 24) :
    crcBytes (a ^^^ b) (List.zipWith (· ^^^ ·) xs ys) = crcBytes a xs ^^^ crcBytes b ys := by
  induction xs generalizing ys a b with
  | nil =>
    obtain rfl := List.length_eq_zero_iff.1 h.symm
    rfl
  | cons x xs ih =>
    obtain ⟨y, ys, rfl⟩ := List.exists_cons_of_length_eq_add_one h.symm
    rw [List.zipWith_cons_cons]
    simp only [crcBytes, List.foldl_cons, crcByte_xor]
    exact ih (Nat.succ.inj h) _ _

/-- `calc` is linear in the seed and in the bytes of `PKT` (48_crc24.md R207 (d)). -/
theorem runCrc_calcCrc_xor {s1 s2 s3 : State} {n : Nat} (hn : n ≤ pktCap) (a b : BitVec 24)
    (h : ∀ i (hi : i < 68), s3.pkt[i] = s1.pkt[i] ^^^ s2.pkt[i]) :
    (runCrc n (a ^^^ b) s3).calcCrc = (runCrc n a s1).calcCrc ^^^ (runCrc n b s2).calcCrc := by
  have hpkt : s3.pkt.toList = List.zipWith (· ^^^ ·) s1.pkt.toList s2.pkt.toList :=
    List.ext_getElem (by simp) fun i hi _ => by simpa using h i (by simpa using hi)
  simp only [runCrc_calcCrc, pktBytes_within _ _ hn, hpkt, List.take_zipWith]
  exact crcBytes_xor (by simp) a b

/-- Settles O52. Zeros are the XOR of zeros with themselves, so that by linearity `calc` is its own XOR, which is 0. -/
theorem crcIsLinear : Obligations.CrcIsLinear := by
  intro s1 s2 s3 n a b hn h
  refine ⟨_, _, _, rfl, rfl, rfl, runCrc_calcCrc_xor hn a b h, fun ha hzero => ?_⟩
  have hself := runCrc_calcCrc_xor (s1 := s1) (s2 := s1) (s3 := s1) hn 0#24 0#24 fun i hi => by simp [hzero i hi]
  rw [BitVec.xor_self, BitVec.xor_self] at hself
  exact ha ▸ hself

/-! ### Differences are kept -/

/-- The taps have bit 0 set, so the bit shifted out is still to be seen and a step loses nothing (48_crc24.md R202). -/
theorem crcNext_injective (d : Bool) : Function.Injective (crcNext · d) := by
  intro a b h
  have hbit : ∀ i, (crcNext a d).getLsbD i = (crcNext b d).getLsbD i := fun i => congrArg (BitVec.getLsbD · i) h
  have htop : a.getLsbD 23 = b.getLsbD 23 := by
    have hlow : crcPoly.getLsbD 0 = true := rfl
    have h0 := hbit 0
    rw [crcNext_getLsbD _ _ _ (by decide), crcNext_getLsbD _ _ _ (by decide), hlow] at h0
    simpa using h0
  refine BitVec.eq_of_getLsbD_eq fun i hi => ?_
  obtain hi | rfl := Nat.lt_succ_iff_lt_or_eq.1 hi
  · have hnext := hbit (i + 1)
    rw [crcNext_getLsbD _ _ _ (by omega), crcNext_getLsbD _ _ _ (by omega), htop] at hnext
    simpa using hnext
  · exact htop

theorem foldl_injective {α β : Type} {f : α → β → α} (hf : ∀ x, Function.Injective (f · x)) (xs : List β) :
    Function.Injective (xs.foldl f) := by
  induction xs with
  | nil => exact Function.injective_id
  | cons x xs ih => exact ih.comp (hf x)

theorem crcByte_injective_register (x : Byte) : Function.Injective (crcByte · x) :=
  foldl_injective (fun v => crcNext_injective ((rev x).getLsbD v)) (List.range 8)

/-- By linearity the XOR of two bytes that leave the same register leaves 0 from 0, and only the byte 0 does. -/
theorem crcByte_injective_byte (c : BitVec 24) : Function.Injective (crcByte c) := by
  have hzero : ∀ x : Byte, crcByte 0#24 x = 0#24 → x = 0#8 := by decide +kernel
  intro x y h
  have hxor := crcByte_xor c c x y
  rw [h, BitVec.xor_self, BitVec.xor_self] at hxor
  exact BitVec.xor_eq_zero_iff.1 (hzero _ hxor)

/-- A run over a list notices any one element that is changed, if no step loses a difference. -/
theorem foldl_set_ne {α β : Type} {f : α → β → α} (hl : ∀ x, Function.Injective (f · x))
    (hr : ∀ a, Function.Injective (f a)) (a : α) {xs : List β} {k : Nat} (hk : k < xs.length) {y : β}
    (hy : y ≠ xs[k]) :
    (xs.set k y).foldl f a ≠ xs.foldl f a := by
  induction xs generalizing a k with
  | nil => simp at hk
  | cons x xs ih =>
    cases k with
    | zero => exact (foldl_injective hl xs).ne ((hr a).ne hy)
    | succ k => exact ih (f a x) (Nat.lt_of_succ_lt_succ hk) hy

/-- Settles O53: the flip makes one byte another one, and no step of the register loses the difference. -/
theorem crcCatchesEverySingleBitFlip : Obligations.CrcCatchesEverySingleBitFlip := by
  intro s s' n k c seed hn hk hc h
  refine ⟨_, _, rfl, rfl, ?_⟩
  show (runCrc n seed s).calcCrc ≠ (runCrc n seed s').calcCrc
  have hcap : k < pktCap := hk.trans_le hn
  have hmask : ∀ c < 8, (1#8 <<< c) ≠ 0#8 := by decide
  have hflip : s.pkt[k] ^^^ (1#8 <<< c) ≠ s.pkt[k] := by simpa using hmask c hc
  have hpkt : s'.pkt = s.pkt.set k (s.pkt[k] ^^^ (1#8 <<< c)) := by
    refine Vector.ext fun i hi => ?_
    rw [h i hi, Vector.getElem_set]
    obtain rfl | hne := eq_or_ne i k
    · simp only [if_true]
    · rw [if_neg hne, if_neg hne.symm]
  rw [runCrc_calcCrc, runCrc_calcCrc, pktBytes_within _ _ hn, pktBytes_within _ _ hn, hpkt, Vector.toList_set,
    List.take_set]
  exact (foldl_set_ne crcByte_injective_register crcByte_injective_byte seed (by simp [hk, hcap])
    (by simpa using hflip)).symm

end Sys2Proof.Machine
end

section
/-! FE.ADDR, FE.EMIT and CD.ARM run alone (49_field_emitter.md R221, R223, R225). -/

namespace Sys2Proof.Machine

/-- Settles O55: each byte of the address is the reversal of its entry of `PKT`. -/
theorem deviceAddressBytes : Obligations.DeviceAddressBytes := by
  intro s
  refine ⟨{ s with result := .address (deviceAddress s.pkt) }, deviceAddress s.pkt, rfl, rfl, rfl, fun i hi => ?_⟩
  exact ⟨rev_getLsbD _ i hi, rev_getLsbD _ i hi, rev_getLsbD _ i hi, rev_getLsbD _ i hi, rev_getLsbD _ i hi,
    rev_getLsbD _ i hi⟩

/-- Settles O56: what is appended is decided by the gate of 48_crc24.md R206, which writes the queue alone. -/
theorem recordIsEightEntries : Obligations.RecordIsEightEntries := by
  intro s m
  have hframe := congrArg (fun t : State => { t with result := .nothing }) (gateRecord_frame m s)
  obtain ⟨heq, hgate⟩ | ⟨hne, hgate⟩ := gateRecord_cases m s
  · refine ⟨_, record s.params m, rfl, ?_, fun _ => rfl, fun hne => absurd heq hne, hframe⟩
    show (gateRecord m s).1.outq = _
    rw [hgate, emitRecord_outq]
  · refine ⟨_, [], rfl, ?_, fun heq => absurd heq hne, fun _ => rfl, hframe⟩
    show (gateRecord m s).1.outq = _
    rw [hgate, List.append_nil]

/-- Settles O57: the value written does not depend on `cd`. -/
theorem armLoadsTwenty : Obligations.ArmLoadsTwenty := fun s =>
  ⟨{ armCooldown s with result := .nothing }, rfl, rfl, rfl⟩

end Sys2Proof.Machine
end

section
/-! INGEST that rejects before the candidate is processed (60_exceptions.md R241, R242, R243). -/

namespace Sys2Proof.Machine

variable {s : State} {v : Sample}

/-- Settles O12: the rejection comes before the push (60_exceptions.md R241). -/
theorem ingestBeforeConfigureIsInert : Obligations.IngestBeforeConfigureIsInert := fun _ v hc =>
  congrArg Host.Outcome.next (ingest_of_unconfigured v hc)

theorem ingest_of_no_preamble (hc : s.configured = true) (hcd : s.cd = 0#5)
    (hpre : ¬ Alternates (windowBit (pushSample v s))) : (ingest v s).1 = searched v s := by
  have hp : preOk (searched v s) = false := Bool.eq_false_of_not_eq_true (mt (preOk_searched_iff v s).1 hpre)
  rw [ingest_fst, outcomeOf, if_neg (by simp [hc]), if_neg (not_not.2 hcd), if_pos hp, stateAfter]

theorem ingest_of_wrong_address (hc : s.configured = true) (hcd : s.cd = 0#5)
    (hpre : Alternates (windowBit (pushSample v s))) (haa : ¬ CarriesAddress (windowBit (pushSample v s))) :
    (ingest v s).1 = assembleAddress (searched v s) := by
  have hp : preOk (searched v s) = true := (preOk_searched_iff v s).2 hpre
  have ha : aaOk (assembleAddress (searched v s)) = false :=
    Bool.eq_false_of_not_eq_true (mt (aaOk_searched_iff v s).1 haa)
  rw [ingest_fst, outcomeOf, if_neg (by simp [hc]), if_neg (not_not.2 hcd), if_neg (by simp [hp]), if_pos ha,
    stateAfter]

/-- The search of an eligible INGEST writes the ring, `thr` and `trans`; the tick before it leaves `cd` at 0
(40_commands_sequencer.md R104). -/
theorem searched_frame (v : Sample) (hcd : s.cd = 0#5) :
    searched v s = { s with
      wp := (searched v s).wp, ring := (searched v s).ring, thr := (searched v s).thr,
      trans := (searched v s).trans } := by
  have htick : (searched v s).cd = s.cd := (searched_cd v hcd).trans hcd.symm
  rw [← htick]
  rfl

/-- The threshold an eligible INGEST leaves is the mean of the window it leaves (42_slicer.md R130, R131). -/
theorem isFloorMean_ingest (v : Sample) (hc : s.configured = true) (hcd : s.cd = 0#5) :
    IsFloorMean (ingest v s).1.thr.toInt (newestSum (ingest v s).1) := by
  obtain ⟨hring, hwp⟩ := ingest_ring_wp v hc
  rw [ingest_thr, if_pos ⟨hc, hcd⟩, newestSum_congr (t := pushSample v s) (ingest_params v s) hring hwp]
  exact isFloorMean_setThreshold _

/-- The count the search leaves is that of the window's bits (43_preamble.md R140). -/
theorem searched_trans_toNat (v : Sample) (s : State) :
    (searched v s).trans.toNat = transitionCount (windowBit (pushSample v s)) := by
  rw [← bitAt_searched]
  exact transitions_toNat (searched v s)

/-- Settles O14: an eligible INGEST that finds no preamble stops after the search. -/
theorem ingestWithoutPreamble : Obligations.IngestWithoutPreamble := by
  intro s v hc hcd hpre
  refine ⟨_, rfl, pushed_ingest v hc, isFloorMean_ingest v hc hcd, ?trans, ?frame⟩
  case trans => rw [windowBit_ingest v hc, ingest_of_no_preamble hc hcd hpre, searched_trans_toNat]
  case frame =>
    rw [ingest_of_no_preamble hc hcd hpre]
    exact searched_frame v hcd

/-- Settles O15: an eligible INGEST that finds a preamble and a wrong address stops once `aa` is assembled. -/
theorem ingestWithWrongAddress : Obligations.IngestWithWrongAddress := by
  intro s v hc hcd hpre haa
  refine ⟨_, rfl, pushed_ingest v hc, isFloorMean_ingest v hc hcd, ?trans, fun n hn => ?address, ?frame⟩
  case trans =>
    rw [ingest_of_wrong_address hc hcd hpre haa]
    exact searched_trans_of_alternates hpre
  case address =>
    rw [windowBit_ingest v hc, ingest_of_wrong_address hc hcd hpre haa, assembleAddress_aa,
      accessAddress_getLsbD _ n hn, bitAt_searched]
  case frame =>
    rw [ingest_of_wrong_address hc hcd hpre haa]
    exact congrArg assembleAddress (searched_frame v hcd)

end Sys2Proof.Machine
end

section
/-! What stands behind a record (48_crc24.md R206, 49_field_emitter.md R220). -/

namespace Sys2Proof.Machine

variable {s : State} {v : Sample}

/-- An INGEST accepts exactly if every test of 40_commands_sequencer.md R104 passes. -/
theorem outcomeOf_eq_accept_iff (v : Sample) (s : State) : outcomeOf v s = .accept ↔
    s.configured = true ∧ s.cd = 0#5 ∧ Alternates (windowBit (pushSample v s)) ∧
    CarriesAddress (windowBit (pushSample v s)) ∧ (candidate v s).calcCrc = (candidate v s).rxCrc := by
  have hcrc : crcOk (candidate v s) = true ↔ (candidate v s).calcCrc = (candidate v s).rxCrc := beq_iff_eq
  rw [← preOk_searched_iff, ← aaOk_searched_iff, ← hcrc, outcomeOf]
  split_ifs <;> simp_all

/-- An INGEST that changes the queue has found a match and left one record, behind the gate of 48_crc24.md R206. -/
theorem ingest_of_outq_ne (h : (ingest v s).1.outq ≠ s.outq) :
    s.configured = true ∧ s.cd = 0#5 ∧ (ingest v s).1.trans = 8#4 ∧ (ingest v s).1.aa = advAA ∧
    (ingest v s).1.cd = 20#5 ∧ (ingest v s).1.calcCrc = (ingest v s).1.rxCrc ∧
    ∃ m, (ingest v s).1.outq = s.outq ++ record s.params m := by
  have hout := stateAfter_outq v s (outcomeOf v s)
  rw [← ingest_fst] at hout
  have haccept : outcomeOf v s = .accept := by
    by_contra hne
    rw [if_neg hne, List.append_nil] at hout
    exact h hout
  obtain ⟨hc, hcd, hpre, haa, hcrc⟩ := (outcomeOf_eq_accept_iff v s).1 haccept
  obtain ⟨htrans, haddr, harmed, -, -⟩ := ingest_of_match_registers hc hcd hpre haa
  rw [if_pos haccept] at hout
  refine ⟨hc, hcd, htrans, haddr, harmed, ?_, _, hout⟩
  rw [ingest_fst, haccept, stateAfter, emitRecord_calcCrc, emitRecord_rxCrc, hcrc]

/-- The gate of 48_crc24.md R206 changes the queue only if it is open. -/
theorem gateRecord_of_outq_ne {m : Mac} (h : (gateRecord m s).1.outq ≠ s.outq) :
    s.calcCrc = s.rxCrc ∧ (gateRecord m s).1 = emitRecord m s := by
  obtain ⟨hcrc, hgate⟩ | ⟨-, hgate⟩ := gateRecord_cases m s
  · exact ⟨hcrc, by rw [hgate]⟩
  · exact absurd (by rw [hgate]) h

/-- A command word that decodes to INGEST is its encoding: INGEST reads all of imm (30_encoding.md R76). -/
theorem eq_encode_of_decode_ingest {c : BitVec 18} (h : decode (.command c) = .ok (.ingest v)) :
    .command c = encode (.ingest v) := by
  have hfields : commandOp c ++ commandImm c = c := by
    rw [commandOp, commandImm, BitVec.extractLsb'_append_extractLsb'_eq_extractLsb' (by decide),
      BitVec.extractLsb'_eq_self]
  rw [encode_of_decodeCommand h, Instr.operandBits, lowBits_self, hfields]

/-- Settles O18: of the commands RESET empties the queue and CONFIGURE leaves it, so it was INGEST, and INGEST had
passed its tests. -/
theorem emissionNeedsEveryTest : Obligations.EmissionNeedsEveryTest := by
  intro s t hc hstep hne hnil
  obtain ⟨-, ⟨-, rfl⟩ | ⟨w, ws, -, -, rfl⟩ | ⟨w, ws, i, hp, hd, he⟩⟩ := step_cases hstep
  · exact absurd rfl hne
  · exact absurd rfl hne
  · obtain ⟨c, rfl⟩ := hc w (hp ▸ List.mem_cons_self)
    obtain rfl | ⟨v, rfl⟩ | rfl := command_of_decode_ok hd <;> cases he
    · exact absurd rfl hnil
    · obtain ⟨hconf, hcd, htrans, haa, -, hcrc, m, hout⟩ := ingest_of_outq_ne hne
      exact ⟨hconf, hcd, ⟨v, ws, eq_encode_of_decode_ingest hd ▸ hp⟩, htrans, haa, hcrc, m, hout, rfl⟩
    · exact absurd rfl hne

/-- Settles O59: of the writers of the queue (10_state.md R39) FE.EMIT and INGEST go through the gate of R206, and
RESET is left out. -/
theorem recordNeedsAMatchingCrc : Obligations.RecordNeedsAMatchingCrc := by
  intro s t hstep hreset hne
  obtain ⟨-, ⟨-, rfl⟩ | ⟨w, ws, -, -, rfl⟩ | ⟨w, ws, i, hp, hd, he⟩⟩ := step_cases hstep
  · exact absurd rfl hne
  · exact absurd rfl hne
  · obtain ⟨-, -, -, -, -, -, -, hwriters, -⟩ := onlyTheWritersWrite i _ t he
    obtain ⟨m, rfl⟩ | ⟨v, rfl⟩ | rfl := hwriters hne
    · cases he
      obtain ⟨hcrc, hgate⟩ := gateRecord_of_outq_ne hne
      rw [hgate]
      exact ⟨hcrc, m, emitRecord_outq m _, rfl⟩
    · cases he
      obtain ⟨-, -, -, -, -, hcrc, m, hout⟩ := ingest_of_outq_ne hne
      exact ⟨hcrc, m, hout, rfl⟩
    · exact absurd ⟨w, ws, hp, hd⟩ hreset

end Sys2Proof.Machine
end

section
/-! At most one record in any 21 INGESTs (70_reset_and_hazards.md R280). -/

namespace Sys2Proof.Machine

/-- A run of at most 21 INGESTs pushes at most one record: the first one arms the cooldown, which outlasts the rest. -/
theorem ingestAll_outq_of_length_le (vs : List Sample) (s : State) (hlen : vs.length ≤ 21) :
    ∃ q, (ingestAll vs s).outq = s.outq ++ q ∧ q.length ≤ 8 := by
  induction vs generalizing s with
  | nil => exact ⟨[], (List.append_nil _).symm, by decide⟩
  | cons v vs ih =>
    rw [List.length_cons] at hlen
    rw [ingestAll_cons]
    by_cases h : (ingest v s).1.outq = s.outq
    · rw [← h]
      exact ih _ (by omega)
    · obtain ⟨hc, -, -, -, harmed, -, m, hout⟩ := ingest_of_outq_ne h
      obtain ⟨-, hframe⟩ :=
        cooldownLastsTwentyIngests (ingest v s).1 vs (by rwa [ingest_configured]) harmed (by omega)
      refine ⟨record s.params m, ?_, le_rfl⟩
      rw [hframe, ← hout]

/-- Settles O22: 21 INGESTs are such a run. -/
theorem atMostOneRecordPerTwentyOneIngests : Obligations.AtMostOneRecordPerTwentyOneIngests :=
  fun s vs hlen => ingestAll_outq_of_length_le vs s hlen.le

end Sys2Proof.Machine
end

section
/-! Constant input over a constant `RB_INIT` (95_test_vectors.md T1, 90_conflicts.md C7): the window is a run of the old
value and then a run of the new one, so that the bits from offset 1 on change at most once. -/

namespace Sys2Proof.Machine

/-- The block after reset and CONFIGURE. -/
def configuredReset (p : Params) : State := { State.resetWith p with configured := true }

@[simp] theorem configuredReset_params (p : Params) : (configuredReset p).params = p := rfl

/-- The configured block n INGESTs of c later: the state `Obligations.ConstantInputIsNeverAPreamble` speaks of. -/
def constantRun (p : Params) (c : Sample) (n : Nat) : State := ingestAll (List.replicate n c) (configuredReset p)

variable {p : Params} {a c : Sample}

theorem constantRun_succ (p : Params) (c : Sample) (n : Nat) :
    constantRun p c (n + 1) = (ingest c (constantRun p c n)).1 := by
  rw [constantRun, List.replicate_succ', ingestAll, List.foldl_append]
  rfl

@[simp] theorem constantRun_params (p : Params) (c : Sample) (n : Nat) : (constantRun p c n).params = p :=
  ingestAll_params _ _

theorem constantRun_configured (p : Params) (c : Sample) (n : Nat) : (constantRun p c n).configured = true := by
  induction n with
  | zero => rfl
  | succ n ih => rw [constantRun_succ, ingest_configured, ih]

/-- Offset N stands for offset 0: the last n of the offsets 1 to N hold c, the others what the ring held after reset. -/
theorem sampleAt_constantRun (ha : ∀ i < p.rbSize, ringInit p i = a) (n : Nat) {k : Nat} (hk : 0 < k)
    (hN : k ≤ p.rbSize) :
    sampleAt (constantRun p c n) k = if p.rbSize < n + k then c.toInt else a.toInt := by
  have hinit : ∀ i, sampleAt (configuredReset p) i = a.toInt := fun i =>
    congrArg BitVec.toInt (ha _ (Nat.mod_lt _ (hk.trans_le hN)))
  rw [constantRun, sampleAt_ingestAll _ rfl hk hN, hinit, List.length_replicate, configuredReset_params]
  refine ite_congr rfl (fun hlt => ?_) fun _ => rfl
  rw [List.getD_eq_getElem?_getD, List.getElem?_replicate, if_pos (by omega), Option.getD_some]

/-- From N samples on the window holds c throughout. -/
theorem sampleAt_constantRun_filled (ha : ∀ i < p.rbSize, ringInit p i = a) (hpos : 0 < p.rbSize) {n : Nat}
    (hn : p.rbSize ≤ n) {k : Nat} (hk : k ≤ p.rbSize) : sampleAt (constantRun p c n) k = c.toInt := by
  obtain rfl | hk0 := Nat.eq_zero_or_pos k
  · have h0 := sampleAt_rbSize (constantRun p c n)
    rw [constantRun_params] at h0
    rw [← h0, sampleAt_constantRun ha n hpos le_rfl, if_pos (by omega)]
  · rw [sampleAt_constantRun ha n hk0 hk, if_pos (by omega)]

/-- Offsets 1, 2 and 3 alone cannot alternate: the samples there change at most once, from a to c. -/
theorem not_alternates_constantRun (hl : p.legal = true) (ha : ∀ i < p.rbSize, ringInit p i = a) (n : Nat) :
    ¬ Alternates (windowBit (constantRun p c n)) := by
  have hN := (legal_iff p).1 hl
  intro h
  have h1 : sampleAt (constantRun p c n) 1 ≠ sampleAt (constantRun p c n) 2 := fun heq =>
    h 1 (by decide) (by rw [windowBit, windowBit, heq])
  have h2 : sampleAt (constantRun p c n) 2 ≠ sampleAt (constantRun p c n) 3 := fun heq =>
    h 2 (by decide) (by rw [windowBit, windowBit, heq])
  rw [sampleAt_constantRun ha n (by decide) (by omega), sampleAt_constantRun ha n (by decide) (by omega)] at h1 h2
  split_ifs at h1 h2 <;> omega

/-- So an INGEST of the run stops after the search (60_exceptions.md R242). -/
theorem constantRun_succ_eq_searched (hl : p.legal = true) (ha : ∀ i < p.rbSize, ringInit p i = a) {n : Nat}
    (hcd : (constantRun p c n).cd = 0#5) : constantRun p c (n + 1) = searched c (constantRun p c n) := by
  have hc := constantRun_configured p c n
  have hpre := not_alternates_constantRun (c := c) hl ha (n + 1)
  rw [constantRun_succ, windowBit_ingest c hc] at hpre
  rw [constantRun_succ, ingest_of_no_preamble hc hcd hpre]

/-- No search leaves the queue or `cd` other than after reset. -/
theorem constantRun_outq_cd (hl : p.legal = true) (ha : ∀ i < p.rbSize, ringInit p i = a) (n : Nat) :
    (constantRun p c n).outq = [] ∧ (constantRun p c n).cd = 0#5 := by
  induction n with
  | zero => exact ⟨rfl, rfl⟩
  | succ n ih =>
    obtain ⟨houtq, hcd⟩ := ih
    rw [constantRun_succ_eq_searched hl ha hcd]
    exact ⟨houtq, searched_cd c hcd⟩

theorem newestSum_constantRun (hl : p.legal = true) (ha : ∀ i < p.rbSize, ringInit p i = a) {n : Nat} (hn : 8 ≤ n) :
    newestSum (constantRun p c n) = 8 * c.toInt := by
  have hN := (legal_iff p).1 hl
  have hnew : ∀ j < 8, newestSample (constantRun p c n) j = c.toInt := fun j hj => by
    have hold := memRead_sub (constantRun p c n) (j := j) (by rw [constantRun_params]; omega)
    rw [constantRun_params, sampleAt_constantRun ha n (by omega) (by omega), if_pos (by omega)] at hold
    exact hold
  rw [newestSum, hnew 0, hnew 1, hnew 2, hnew 3, hnew 4, hnew 5, hnew 6, hnew 7] <;> omega

/-- From 8 samples on the threshold is their mean, c itself (42_slicer.md R131). -/
theorem constantRun_thr (hl : p.legal = true) (ha : ∀ i < p.rbSize, ringInit p i = a) {n : Nat} (hn : 8 ≤ n) :
    (constantRun p c n).thr = c := by
  obtain ⟨m, rfl⟩ : ∃ m, n = m + 1 := Nat.exists_eq_add_one.2 (by omega)
  have hmean := isFloorMean_ingest c (constantRun_configured p c m) (constantRun_outq_cd hl ha m).2
  rw [← constantRun_succ, newestSum_constantRun hl ha hn, IsFloorMean] at hmean
  exact BitVec.eq_of_toInt_eq (by omega)

/-- From N samples on every offset holds c, and no two bits differ (43_preamble.md R140). -/
theorem constantRun_trans (hl : p.legal = true) (ha : ∀ i < p.rbSize, ringInit p i = a) {n : Nat}
    (hn : p.rbSize ≤ n) : (constantRun p c n).trans = 0#4 := by
  have hN := (legal_iff p).1 hl
  obtain ⟨m, rfl⟩ : ∃ m, n = m + 1 := Nat.exists_eq_add_one.2 (by omega)
  have hcd := (constantRun_outq_cd (c := c) hl ha m).2
  have hwindow : ∀ k ≤ p.rbSize, sampleAt (constantRun p c (m + 1)) k = c.toInt := fun k hk =>
    sampleAt_constantRun_filled ha (by omega) hn hk
  have hcount : transitionCount (windowBit (constantRun p c (m + 1))) = 0 := by
    rw [transitionCount, List.length_eq_zero_iff, List.filter_eq_nil_iff]
    intro i hi
    have hi : i < 8 := List.mem_range.1 hi
    simp [windowBit, hwindow i (by omega), hwindow (i + 1) (by omega)]
  refine BitVec.eq_of_toNat_eq ?_
  rw [constantRun_succ, windowBit_ingest c (constantRun_configured p c m), ← searched_trans_toNat] at hcount
  rw [constantRun_succ_eq_searched hl ha hcd, hcount]
  rfl

/-- Settles O24: no INGEST of the run finds a preamble, so each one only searches a window that fills up with c. -/
theorem constantInputIsNeverAPreamble : Obligations.ConstantInputIsNeverAPreamble := by
  intro p a c n hl ha
  obtain ⟨houtq, hcd⟩ := constantRun_outq_cd hl ha n
  exact ⟨houtq, hcd, constantRun_thr hl ha, constantRun_trans hl ha⟩

end Sys2Proof.Machine
end
